-- ==== Sys2Proof/Word.lean ====
section
/-! DEFINITION. The word types of the core (00_scope.md R7, R9 to R11): 64-bit register values and addresses, 32-bit
instruction words, 5-bit register indices, 8-bit memory bytes. -/

namespace Sys2Proof

/-- A register value, operand or address: 64 bits (R10, XLEN = 64 in R7). -/
abbrev Word := BitVec 64

/-- A 32-bit instruction word, the only length that executes (R60). -/
abbrev InstrWord := BitVec 32

/-- A general register's number, 0 to 31: the 5-bit fields rd, rs1, rs2 of R61. -/
abbrev RegIdx := BitVec 5

/-- One byte of the memory port's byte store (R40). -/
abbrev Byte := BitVec 8

end Sys2Proof
end

