-- ==== Sys2Proof/Machine/Flags.lean ====
section
/-! DEFINITION. The comparisons of the core. It has NO status flags, condition codes or predicates (10_state.md R29): a
comparison is computed, used within its step and not retained, so there is no flag to compute beside it. -/

namespace Sys2Proof.Machine

/-- `a = b` (R133, R134). -/
def cmpEq (a b : Word) : Bool := a == b

/-- `a <s b`: the signed readings compare (R11, R111, R135). -/
def cmpLtSigned (a b : Word) : Bool := decide (a.toInt < b.toInt)

/-- `a <u b`: the unsigned readings compare (R11, R113, R137). -/
def cmpLtUnsigned (a b : Word) : Bool := decide (a.toNat < b.toNat)

/-- A comparison delivered in a register: exactly 0 or 1 (R29, R121). -/
def boolWord (b : Bool) : Word := if b then 1#64 else 0#64

end Sys2Proof.Machine
end

