-- ==== Sys2Proof/Config.lean ====
section
/-! DEFINITION. The implementation parameters of 00_scope.md R7: the fixed values, and the types in which the OPEN
parameter `MemAdmit` is written down. The value of `MemAdmit` itself is a field of State, so that every theorem about
every state is a theorem about every `MemAdmit` (log 2). -/

namespace Sys2Proof

/-- The pc right after reset (R7, R37). -/
def Config.resetPc : Word := 0#64

/-- Every general register right after reset (R7, R37). -/
def Config.resetRegister : Word := 0#64

/-- `SYSCALL_NUM_REG` = 17, a7 (R7, R8, 92_eei_decisions.md D10; log 8). -/
def Config.syscallNumReg : RegIdx := 17#5

/-- `SYSCALL_ARG_REG` = 10, a0 (R7, R8, D10; log 8). -/
def Config.syscallArgReg : RegIdx := 10#5

/-- `EXIT_SYSCALL_NUMBER` = 93 (R7, R8, D11; log 8). -/
def Config.exitSyscallNumber : Word := 93#64

/-- What a byte of memory that no cell lists reads as. DESIGN CHOICE: `mem0` is OPEN (R40, R48), a state's cells may
list any image over this background (log 4). -/
def Config.unlistedByte : Byte := 0#8

/-- The `kind` of an access, the first argument of `MemAdmit` (R40). -/
inductive AccessKind where
  | fetch | load | store
  deriving DecidableEq, Repr

/-- The width of an access: 1, 2, 4 or 8 bytes (R7, R46). -/
inductive Width where
  | byte | half | word | double
  deriving DecidableEq, Repr

/-- The number of bytes of a width (R46: "`B`=1 byte, `H`=2, `W`=4, `D`=8 bytes"). -/
def Width.bytes : Width → Nat
  | .byte => 1
  | .half => 2
  | .word => 4
  | .double => 8

/-- One row of the table in which a state holds `MemAdmit`: the accesses of one kind and width whose address lies from
`first` to `last` and is a multiple of `align` are admitted. -/
structure AdmitRow where
  kind : AccessKind
  width : Width
  first : Word
  last : Word
  align : Nat
  deriving DecidableEq, Repr

/-- The row that admits every access of one kind and width. -/
def AdmitRow.everywhere (kind : AccessKind) (width : Width) : AdmitRow :=
  { kind := kind, width := width, first := 0#64, last := 0xFFFFFFFFFFFFFFFF#64, align := 1 }

/-- The table that admits every access the core makes: the `MemAdmit` State.reset holds. DESIGN CHOICE (log 3). -/
def Config.admitEverything : List AdmitRow :=
  [ .everywhere .fetch .word,
    .everywhere .load .byte, .everywhere .load .half, .everywhere .load .word, .everywhere .load .double,
    .everywhere .store .byte, .everywhere .store .half, .everywhere .store .word, .everywhere .store .double ]

end Sys2Proof
end

