-- ==== Sys2Proof/Syntax.lean ====
section
/-! DEFINITION. The 45 instruction variants (10_state.md R31), one constructor per row of spec/opcode_table.json, in
the table's order. Operands are the instruction's own fields: register numbers, and each immediate as the field the
encoding assembles (30_encoding.md R66 to R71), before its extension to 64 bits. A branch or JAL offset carries its
bit 0, which the encoding cannot hold; WellFormed.lean requires it to be 0. -/

namespace Sys2Proof

/-- An instruction of the core (R2, R31), operands in the order rd, rs1, rs2, immediate. -/
inductive Instr where
  /-- `LUI rd, imm20` (R128). -/
  | lui (rd : RegIdx) (imm20 : BitVec 20)
  /-- `AUIPC rd, imm20` (R129). -/
  | auipc (rd : RegIdx) (imm20 : BitVec 20)
  /-- `JAL rd, offset` (R130). -/
  | jal (rd : RegIdx) (offset : BitVec 21)
  /-- `JALR rd, offset(rs1)` (R131). -/
  | jalr (rd rs1 : RegIdx) (imm : BitVec 12)
  /-- `BEQ rs1, rs2, offset` (R133). -/
  | beq (rs1 rs2 : RegIdx) (offset : BitVec 13)
  /-- `BNE rs1, rs2, offset` (R134). -/
  | bne (rs1 rs2 : RegIdx) (offset : BitVec 13)
  /-- `BLT rs1, rs2, offset` (R135). -/
  | blt (rs1 rs2 : RegIdx) (offset : BitVec 13)
  /-- `BGE rs1, rs2, offset` (R136). -/
  | bge (rs1 rs2 : RegIdx) (offset : BitVec 13)
  /-- `BLTU rs1, rs2, offset` (R137). -/
  | bltu (rs1 rs2 : RegIdx) (offset : BitVec 13)
  /-- `BGEU rs1, rs2, offset` (R138). -/
  | bgeu (rs1 rs2 : RegIdx) (offset : BitVec 13)
  /-- `LB rd, offset(rs1)` (R141). -/
  | lb (rd rs1 : RegIdx) (imm : BitVec 12)
  /-- `LH rd, offset(rs1)` (R142). -/
  | lh (rd rs1 : RegIdx) (imm : BitVec 12)
  /-- `LW rd, offset(rs1)` (R143). -/
  | lw (rd rs1 : RegIdx) (imm : BitVec 12)
  /-- `LD rd, offset(rs1)` (R144). -/
  | ld (rd rs1 : RegIdx) (imm : BitVec 12)
  /-- `LBU rd, offset(rs1)` (R145). -/
  | lbu (rd rs1 : RegIdx) (imm : BitVec 12)
  /-- `LHU rd, offset(rs1)` (R146). -/
  | lhu (rd rs1 : RegIdx) (imm : BitVec 12)
  /-- `SB rs2, offset(rs1)` (R148). -/
  | sb (rs1 rs2 : RegIdx) (imm : BitVec 12)
  /-- `SH rs2, offset(rs1)` (R149). -/
  | sh (rs1 rs2 : RegIdx) (imm : BitVec 12)
  /-- `SW rs2, offset(rs1)` (R150). -/
  | sw (rs1 rs2 : RegIdx) (imm : BitVec 12)
  /-- `SD rs2, offset(rs1)` (R151). -/
  | sd (rs1 rs2 : RegIdx) (imm : BitVec 12)
  /-- `ADDI rd, rs1, imm` (R103). -/
  | addi (rd rs1 : RegIdx) (imm : BitVec 12)
  /-- `SLTI rd, rs1, imm` (R112). -/
  | slti (rd rs1 : RegIdx) (imm : BitVec 12)
  /-- `SLTIU rd, rs1, imm` (R114). -/
  | sltiu (rd rs1 : RegIdx) (imm : BitVec 12)
  /-- `XORI rd, rs1, imm` (R116). -/
  | xori (rd rs1 : RegIdx) (imm : BitVec 12)
  /-- `ORI rd, rs1, imm` (R118). -/
  | ori (rd rs1 : RegIdx) (imm : BitVec 12)
  /-- `ANDI rd, rs1, imm` (R120). -/
  | andi (rd rs1 : RegIdx) (imm : BitVec 12)
  /-- `SLLI rd, rs1, shamt` (R106). -/
  | slli (rd rs1 : RegIdx) (shamt : BitVec 6)
  /-- `SRLI rd, rs1, shamt` (R108). -/
  | srli (rd rs1 : RegIdx) (shamt : BitVec 6)
  /-- `SRAI rd, rs1, shamt` (R110). -/
  | srai (rd rs1 : RegIdx) (shamt : BitVec 6)
  /-- `ADD rd, rs1, rs2` (R101). -/
  | add (rd rs1 rs2 : RegIdx)
  /-- `SUB rd, rs1, rs2` (R102). -/
  | sub (rd rs1 rs2 : RegIdx)
  /-- `SLL rd, rs1, rs2` (R105). -/
  | sll (rd rs1 rs2 : RegIdx)
  /-- `SLT rd, rs1, rs2` (R111). -/
  | slt (rd rs1 rs2 : RegIdx)
  /-- `SLTU rd, rs1, rs2` (R113). -/
  | sltu (rd rs1 rs2 : RegIdx)
  /-- `XOR rd, rs1, rs2` (R115). -/
  | xor (rd rs1 rs2 : RegIdx)
  /-- `SRL rd, rs1, rs2` (R107). -/
  | srl (rd rs1 rs2 : RegIdx)
  /-- `SRA rd, rs1, rs2` (R109). -/
  | sra (rd rs1 rs2 : RegIdx)
  /-- `OR rd, rs1, rs2` (R117). -/
  | or (rd rs1 rs2 : RegIdx)
  /-- `AND rd, rs1, rs2` (R119). -/
  | and (rd rs1 rs2 : RegIdx)
  /-- `ECALL` (R152). -/
  | ecall
  /-- `ADDIW rd, rs1, imm` (R104). -/
  | addiw (rd rs1 : RegIdx) (imm : BitVec 12)
  /-- `MUL rd, rs1, rs2` (R122). -/
  | mul (rd rs1 rs2 : RegIdx)
  /-- `MULH rd, rs1, rs2` (R123). -/
  | mulh (rd rs1 rs2 : RegIdx)
  /-- `DIV rd, rs1, rs2` (R124). -/
  | div (rd rs1 rs2 : RegIdx)
  /-- `REM rd, rs1, rs2` (R125). -/
  | rem (rd rs1 rs2 : RegIdx)
  deriving DecidableEq, Repr

end Sys2Proof
end

