-- ==== Sys2Proof/Decode.lean ====
section
/-! DEFINITION. The decoder (30_encoding.md R60 to R86) and, after it, the encoder. Decoding is total: every 32-bit word
gives an instruction or exactly one named rejection (R86). The opcode, funct3, funct6 and funct7 values and the places of
rd, rs1, rs2 are the spec's own choice (92_eei_decisions.md D1, D2; log 6). -/

namespace Sys2Proof

/-! ## Variants, families, mnemonics -/

/-- The `variant` tag of the decoded-instruction record (10_state.md R31): one per row of the opcode table. -/
inductive Variant where
  | lui | auipc | jal | jalr | beq | bne | blt | bge | bltu | bgeu | lb
  | lh | lw | ld | lbu | lhu | sb | sh | sw | sd | addi | slti
  | sltiu | xori | ori | andi | slli | srli | srai | add | sub | sll | slt
  | sltu | xor | srl | sra | or | and | ecall | addiw | mul | mulh | div
  | rem
  deriving DecidableEq, Repr

/-- The Instruction Metadata Table: each variant's canonical mnemonic, the lower-case variant name (R81; log 20). -/
def Variant.mnemonic : Variant → String
  | .lui => "lui"
  | .auipc => "auipc"
  | .jal => "jal"
  | .jalr => "jalr"
  | .beq => "beq"
  | .bne => "bne"
  | .blt => "blt"
  | .bge => "bge"
  | .bltu => "bltu"
  | .bgeu => "bgeu"
  | .lb => "lb"
  | .lh => "lh"
  | .lw => "lw"
  | .ld => "ld"
  | .lbu => "lbu"
  | .lhu => "lhu"
  | .sb => "sb"
  | .sh => "sh"
  | .sw => "sw"
  | .sd => "sd"
  | .addi => "addi"
  | .slti => "slti"
  | .sltiu => "sltiu"
  | .xori => "xori"
  | .ori => "ori"
  | .andi => "andi"
  | .slli => "slli"
  | .srli => "srli"
  | .srai => "srai"
  | .add => "add"
  | .sub => "sub"
  | .sll => "sll"
  | .slt => "slt"
  | .sltu => "sltu"
  | .xor => "xor"
  | .srl => "srl"
  | .sra => "sra"
  | .or => "or"
  | .and => "and"
  | .ecall => "ecall"
  | .addiw => "addiw"
  | .mul => "mul"
  | .mulh => "mulh"
  | .div => "div"
  | .rem => "rem"

/-- The variant an instruction term is of. -/
def Instr.variant : Instr → Variant
  | .lui _ _ => .lui
  | .auipc _ _ => .auipc
  | .jal _ _ => .jal
  | .jalr _ _ _ => .jalr
  | .beq _ _ _ => .beq
  | .bne _ _ _ => .bne
  | .blt _ _ _ => .blt
  | .bge _ _ _ => .bge
  | .bltu _ _ _ => .bltu
  | .bgeu _ _ _ => .bgeu
  | .lb _ _ _ => .lb
  | .lh _ _ _ => .lh
  | .lw _ _ _ => .lw
  | .ld _ _ _ => .ld
  | .lbu _ _ _ => .lbu
  | .lhu _ _ _ => .lhu
  | .sb _ _ _ => .sb
  | .sh _ _ _ => .sh
  | .sw _ _ _ => .sw
  | .sd _ _ _ => .sd
  | .addi _ _ _ => .addi
  | .slti _ _ _ => .slti
  | .sltiu _ _ _ => .sltiu
  | .xori _ _ _ => .xori
  | .ori _ _ _ => .ori
  | .andi _ _ _ => .andi
  | .slli _ _ _ => .slli
  | .srli _ _ _ => .srli
  | .srai _ _ _ => .srai
  | .add _ _ _ => .add
  | .sub _ _ _ => .sub
  | .sll _ _ _ => .sll
  | .slt _ _ _ => .slt
  | .sltu _ _ _ => .sltu
  | .xor _ _ _ => .xor
  | .srl _ _ _ => .srl
  | .sra _ _ _ => .sra
  | .or _ _ _ => .or
  | .and _ _ _ => .and
  | .ecall => .ecall
  | .addiw _ _ _ => .addiw
  | .mul _ _ _ => .mul
  | .mulh _ _ _ => .mulh
  | .div _ _ _ => .div
  | .rem _ _ _ => .rem

/-- Row `match` of spec/opcode_table.json: the fixed bits of a variant's words. -/
def Variant.matchBits : Variant → InstrWord
  | .lui => 0x00000037#32
  | .auipc => 0x00000017#32
  | .jal => 0x0000006F#32
  | .jalr => 0x00000067#32
  | .beq => 0x00000063#32
  | .bne => 0x00001063#32
  | .blt => 0x00004063#32
  | .bge => 0x00005063#32
  | .bltu => 0x00006063#32
  | .bgeu => 0x00007063#32
  | .lb => 0x00000003#32
  | .lh => 0x00001003#32
  | .lw => 0x00002003#32
  | .ld => 0x00003003#32
  | .lbu => 0x00004003#32
  | .lhu => 0x00005003#32
  | .sb => 0x00000023#32
  | .sh => 0x00001023#32
  | .sw => 0x00002023#32
  | .sd => 0x00003023#32
  | .addi => 0x00000013#32
  | .slti => 0x00002013#32
  | .sltiu => 0x00003013#32
  | .xori => 0x00004013#32
  | .ori => 0x00006013#32
  | .andi => 0x00007013#32
  | .slli => 0x00001013#32
  | .srli => 0x00005013#32
  | .srai => 0x40005013#32
  | .add => 0x00000033#32
  | .sub => 0x40000033#32
  | .sll => 0x00001033#32
  | .slt => 0x00002033#32
  | .sltu => 0x00003033#32
  | .xor => 0x00004033#32
  | .srl => 0x00005033#32
  | .sra => 0x40005033#32
  | .or => 0x00006033#32
  | .and => 0x00007033#32
  | .ecall => 0x00000073#32
  | .addiw => 0x0000001B#32
  | .mul => 0x02000033#32
  | .mulh => 0x02001033#32
  | .div => 0x02004033#32
  | .rem => 0x02006033#32

/-- Row `mask` of spec/opcode_table.json: which bits of a variant's words are fixed. -/
def Variant.maskBits : Variant → InstrWord
  | .lui => 0x0000007F#32
  | .auipc => 0x0000007F#32
  | .jal => 0x0000007F#32
  | .jalr => 0x0000707F#32
  | .beq => 0x0000707F#32
  | .bne => 0x0000707F#32
  | .blt => 0x0000707F#32
  | .bge => 0x0000707F#32
  | .bltu => 0x0000707F#32
  | .bgeu => 0x0000707F#32
  | .lb => 0x0000707F#32
  | .lh => 0x0000707F#32
  | .lw => 0x0000707F#32
  | .ld => 0x0000707F#32
  | .lbu => 0x0000707F#32
  | .lhu => 0x0000707F#32
  | .sb => 0x0000707F#32
  | .sh => 0x0000707F#32
  | .sw => 0x0000707F#32
  | .sd => 0x0000707F#32
  | .addi => 0x0000707F#32
  | .slti => 0x0000707F#32
  | .sltiu => 0x0000707F#32
  | .xori => 0x0000707F#32
  | .ori => 0x0000707F#32
  | .andi => 0x0000707F#32
  | .slli => 0xFC00707F#32
  | .srli => 0xFC00707F#32
  | .srai => 0xFC00707F#32
  | .add => 0xFE00707F#32
  | .sub => 0xFE00707F#32
  | .sll => 0xFE00707F#32
  | .slt => 0xFE00707F#32
  | .sltu => 0xFE00707F#32
  | .xor => 0xFE00707F#32
  | .srl => 0xFE00707F#32
  | .sra => 0xFE00707F#32
  | .or => 0xFE00707F#32
  | .and => 0xFE00707F#32
  | .ecall => 0xFFFFFFFF#32
  | .addiw => 0x0000707F#32
  | .mul => 0xFE00707F#32
  | .mulh => 0xFE00707F#32
  | .div => 0xFE00707F#32
  | .rem => 0xFE00707F#32

/-- The eleven instruction families of R73 (90_conflicts.md C2). -/
inductive Family where
  | load | opImm | auipc | opImm32 | store | op | lui | branch | jalr | jal | system
  deriving DecidableEq, Repr

/-- The opcode value of a family (R73). -/
def Family.opcode : Family → BitVec 7
  | .load => 0b0000011#7
  | .opImm => 0b0010011#7
  | .auipc => 0b0010111#7
  | .opImm32 => 0b0011011#7
  | .store => 0b0100011#7
  | .op => 0b0110011#7
  | .lui => 0b0110111#7
  | .branch => 0b1100011#7
  | .jalr => 0b1100111#7
  | .jal => 0b1101111#7
  | .system => 0b1110011#7

/-! ## Fields and immediates of a word (R61, R66 to R71) -/

/-- `opcode = w[6:0]`. -/
def opcodeOf (w : InstrWord) : BitVec 7 := w.extractLsb' 0 7
/-- `rd = w[11:7]`. -/
def rdOf (w : InstrWord) : RegIdx := w.extractLsb' 7 5
/-- `funct3 = w[14:12]`. -/
def funct3Of (w : InstrWord) : BitVec 3 := w.extractLsb' 12 3
/-- `rs1 = w[19:15]`. -/
def rs1Of (w : InstrWord) : RegIdx := w.extractLsb' 15 5
/-- `rs2 = w[24:20]`. -/
def rs2Of (w : InstrWord) : RegIdx := w.extractLsb' 20 5
/-- `funct7 = w[31:25]`. -/
def funct7Of (w : InstrWord) : BitVec 7 := w.extractLsb' 25 7
/-- `shamt = w[25:20]` (R71). -/
def shamtOf (w : InstrWord) : BitVec 6 := w.extractLsb' 20 6

/-- The I-immediate's field `w[31:20]` (R66). -/
def fieldI (w : InstrWord) : BitVec 12 := w.extractLsb' 20 12
/-- The S-immediate's field `w[31:25] ∥ w[11:7]` (R67). -/
def fieldS (w : InstrWord) : BitVec 12 := w.extractLsb' 25 7 ++ w.extractLsb' 7 5
/-- The B-immediate's field `w[31] ∥ w[7] ∥ w[30:25] ∥ w[11:8] ∥ 0` (R68). -/
def fieldB (w : InstrWord) : BitVec 13 :=
  w.extractLsb' 31 1 ++ w.extractLsb' 7 1 ++ w.extractLsb' 25 6 ++ w.extractLsb' 8 4 ++ 0#1
/-- The U-immediate's field `w[31:12]` (R69). -/
def fieldU (w : InstrWord) : BitVec 20 := w.extractLsb' 12 20
/-- The J-immediate's field `w[31] ∥ w[19:12] ∥ w[20] ∥ w[30:21] ∥ 0` (R70). -/
def fieldJ (w : InstrWord) : BitVec 21 :=
  w.extractLsb' 31 1 ++ w.extractLsb' 12 8 ++ w.extractLsb' 20 1 ++ w.extractLsb' 21 10 ++ 0#1

/-- A 12-bit immediate as the 64-bit operand, `sext_64` (R66, R67, R72). -/
def sext12 (imm : BitVec 12) : Word := imm.signExtend 64
/-- A branch offset as the 64-bit operand (R68). -/
def sextB (offset : BitVec 13) : Word := offset.signExtend 64
/-- A JAL offset as the 64-bit operand (R70). -/
def sextJ (offset : BitVec 21) : Word := offset.signExtend 64
/-- A U-immediate placed in bits 31:12 and sign-extended: `sext_64(imm20 ∥ 0^12)` (R69, 90_conflicts.md C4). -/
def placeU (imm20 : BitVec 20) : Word := (imm20 ++ 0#12).signExtend 64
/-- A shift amount as the 64-bit operand, `zext_64` (R71). -/
def zextShamt (shamt : BitVec 6) : Word := shamt.setWidth 64

/-- `immI(w)` (R66). -/
def immI (w : InstrWord) : Word := sext12 (fieldI w)
/-- `immS(w)` (R67). -/
def immS (w : InstrWord) : Word := sext12 (fieldS w)
/-- `immB(w)` (R68). -/
def immB (w : InstrWord) : Word := sextB (fieldB w)
/-- `immU(w)` (R69). -/
def immU (w : InstrWord) : Word := placeU (fieldU w)
/-- `immJ(w)` (R70). -/
def immJ (w : InstrWord) : Word := sextJ (fieldJ w)
/-- `shamtI(w)` (R71). -/
def shamtI (w : InstrWord) : Word := zextShamt (shamtOf w)

/-! ## Dispatch -/

/-- Why a 32-bit word is no instruction (R83 to R86). -/
inductive DecodeError where
  /-- `w[1:0] ≠ 0b11`: a 16-bit word, found by Fetch's length test (R60). -/
  | compressed
  /-- The opcode is none of the eleven of R73 (R83). -/
  | unknownOpcode
  /-- The family has no variant for the word's funct fields (R84). -/
  | unknownFunct
  /-- The self-check of R85 failed: the variant dispatch chose, and the mnemonic the table gives the built instruction. -/
  | inconsistent (dispatched : Variant) (canonical : String)
  deriving DecidableEq, Repr

/-- `w[1:0] = 0b11`: the word is a 4-byte instruction (R60). -/
def isFourByte (w : InstrWord) : Bool := w.extractLsb' 0 2 == 0b11#2

/-- The family an opcode value selects (R73), none for any other value (R83). -/
def familyOf (opcode : BitVec 7) : Option Family :=
  match opcode with
  | 0b0000011#7 => some .load
  | 0b0010011#7 => some .opImm
  | 0b0010111#7 => some .auipc
  | 0b0011011#7 => some .opImm32
  | 0b0100011#7 => some .store
  | 0b0110011#7 => some .op
  | 0b0110111#7 => some .lui
  | 0b1100011#7 => some .branch
  | 0b1100111#7 => some .jalr
  | 0b1101111#7 => some .jal
  | 0b1110011#7 => some .system
  | _ => none

/-- OP: `funct7` and `funct3` select the variant (R74). -/
def variantOp (funct7 : BitVec 7) (funct3 : BitVec 3) : Option Variant :=
  match funct7, funct3 with
  | 0b0000000#7, 0b000#3 => some .add
  | 0b0100000#7, 0b000#3 => some .sub
  | 0b0000000#7, 0b001#3 => some .sll
  | 0b0000000#7, 0b010#3 => some .slt
  | 0b0000000#7, 0b011#3 => some .sltu
  | 0b0000000#7, 0b100#3 => some .xor
  | 0b0000000#7, 0b101#3 => some .srl
  | 0b0100000#7, 0b101#3 => some .sra
  | 0b0000000#7, 0b110#3 => some .or
  | 0b0000000#7, 0b111#3 => some .and
  | 0b0000001#7, 0b000#3 => some .mul
  | 0b0000001#7, 0b001#3 => some .mulh
  | 0b0000001#7, 0b100#3 => some .div
  | 0b0000001#7, 0b110#3 => some .rem
  | _, _ => none

/-- OP-IMM: `funct3`, and for the shifts `funct6 = w[31:26]` as well (R75, 90_conflicts.md C9). -/
def variantOpImm (funct3 : BitVec 3) (funct6 : BitVec 6) : Option Variant :=
  match funct3 with
  | 0b000#3 => some .addi
  | 0b010#3 => some .slti
  | 0b011#3 => some .sltiu
  | 0b100#3 => some .xori
  | 0b110#3 => some .ori
  | 0b111#3 => some .andi
  | 0b001#3 => if funct6 = 0b000000#6 then some .slli else none
  | 0b101#3 =>
    if funct6 = 0b000000#6 then some .srli
    else if funct6 = 0b010000#6 then some .srai
    else none
  | _ => none

/-- LOAD (R77). -/
def variantLoad (funct3 : BitVec 3) : Option Variant :=
  match funct3 with
  | 0b000#3 => some .lb
  | 0b001#3 => some .lh
  | 0b010#3 => some .lw
  | 0b011#3 => some .ld
  | 0b100#3 => some .lbu
  | 0b101#3 => some .lhu
  | _ => none

/-- STORE (R77). -/
def variantStore (funct3 : BitVec 3) : Option Variant :=
  match funct3 with
  | 0b000#3 => some .sb
  | 0b001#3 => some .sh
  | 0b010#3 => some .sw
  | 0b011#3 => some .sd
  | _ => none

/-- BRANCH (R78). -/
def variantBranch (funct3 : BitVec 3) : Option Variant :=
  match funct3 with
  | 0b000#3 => some .beq
  | 0b001#3 => some .bne
  | 0b100#3 => some .blt
  | 0b101#3 => some .bge
  | 0b110#3 => some .bltu
  | 0b111#3 => some .bgeu
  | _ => none

/-- The variant a word of a family selects (R74 to R80); none is `UnknownFunct` (R84). -/
def variantIn (f : Family) (w : InstrWord) : Option Variant :=
  match f with
  | .load => variantLoad (funct3Of w)
  | .opImm => variantOpImm (funct3Of w) (w.extractLsb' 26 6)
  | .auipc => some .auipc
  | .opImm32 => if funct3Of w = 0b000#3 then some .addiw else none
  | .store => variantStore (funct3Of w)
  | .op => variantOp (funct7Of w) (funct3Of w)
  | .lui => some .lui
  | .branch => variantBranch (funct3Of w)
  | .jalr => if funct3Of w = 0b000#3 then some .jalr else none
  | .jal => some .jal
  | .system => if w.extractLsb' 7 25 = 0#25 then some .ecall else none

/-- The instruction of a chosen variant, with the operand fields of its format (R62 to R65, R82). -/
def buildInstr (v : Variant) (w : InstrWord) : Instr :=
  match v with
  | .lui => .lui (rdOf w) (fieldU w)
  | .auipc => .auipc (rdOf w) (fieldU w)
  | .jal => .jal (rdOf w) (fieldJ w)
  | .jalr => .jalr (rdOf w) (rs1Of w) (fieldI w)
  | .beq => .beq (rs1Of w) (rs2Of w) (fieldB w)
  | .bne => .bne (rs1Of w) (rs2Of w) (fieldB w)
  | .blt => .blt (rs1Of w) (rs2Of w) (fieldB w)
  | .bge => .bge (rs1Of w) (rs2Of w) (fieldB w)
  | .bltu => .bltu (rs1Of w) (rs2Of w) (fieldB w)
  | .bgeu => .bgeu (rs1Of w) (rs2Of w) (fieldB w)
  | .lb => .lb (rdOf w) (rs1Of w) (fieldI w)
  | .lh => .lh (rdOf w) (rs1Of w) (fieldI w)
  | .lw => .lw (rdOf w) (rs1Of w) (fieldI w)
  | .ld => .ld (rdOf w) (rs1Of w) (fieldI w)
  | .lbu => .lbu (rdOf w) (rs1Of w) (fieldI w)
  | .lhu => .lhu (rdOf w) (rs1Of w) (fieldI w)
  | .sb => .sb (rs1Of w) (rs2Of w) (fieldS w)
  | .sh => .sh (rs1Of w) (rs2Of w) (fieldS w)
  | .sw => .sw (rs1Of w) (rs2Of w) (fieldS w)
  | .sd => .sd (rs1Of w) (rs2Of w) (fieldS w)
  | .addi => .addi (rdOf w) (rs1Of w) (fieldI w)
  | .slti => .slti (rdOf w) (rs1Of w) (fieldI w)
  | .sltiu => .sltiu (rdOf w) (rs1Of w) (fieldI w)
  | .xori => .xori (rdOf w) (rs1Of w) (fieldI w)
  | .ori => .ori (rdOf w) (rs1Of w) (fieldI w)
  | .andi => .andi (rdOf w) (rs1Of w) (fieldI w)
  | .slli => .slli (rdOf w) (rs1Of w) (shamtOf w)
  | .srli => .srli (rdOf w) (rs1Of w) (shamtOf w)
  | .srai => .srai (rdOf w) (rs1Of w) (shamtOf w)
  | .add => .add (rdOf w) (rs1Of w) (rs2Of w)
  | .sub => .sub (rdOf w) (rs1Of w) (rs2Of w)
  | .sll => .sll (rdOf w) (rs1Of w) (rs2Of w)
  | .slt => .slt (rdOf w) (rs1Of w) (rs2Of w)
  | .sltu => .sltu (rdOf w) (rs1Of w) (rs2Of w)
  | .xor => .xor (rdOf w) (rs1Of w) (rs2Of w)
  | .srl => .srl (rdOf w) (rs1Of w) (rs2Of w)
  | .sra => .sra (rdOf w) (rs1Of w) (rs2Of w)
  | .or => .or (rdOf w) (rs1Of w) (rs2Of w)
  | .and => .and (rdOf w) (rs1Of w) (rs2Of w)
  | .ecall => .ecall
  | .addiw => .addiw (rdOf w) (rs1Of w) (fieldI w)
  | .mul => .mul (rdOf w) (rs1Of w) (rs2Of w)
  | .mulh => .mulh (rdOf w) (rs1Of w) (rs2Of w)
  | .div => .div (rdOf w) (rs1Of w) (rs2Of w)
  | .rem => .rem (rdOf w) (rs1Of w) (rs2Of w)

/-- The decoder's self-check (R85): the built instruction's entry in the metadata table must be the one dispatch chose
(compared as variants, which is the same as comparing their mnemonics: log 14). -/
def selfCheck (v : Variant) (i : Instr) : Except DecodeError Instr :=
  if i.variant = v then .ok i else .error (.inconsistent v i.variant.mnemonic)

/-- Decode a 32-bit word (R86): the length test, the family, the variant, the operands, the self-check, in this order. -/
def decode (w : InstrWord) : Except DecodeError Instr :=
  if isFourByte w then
    match familyOf (opcodeOf w) with
    | none => .error .unknownOpcode
    | some f =>
      match variantIn f w with
      | none => .error .unknownFunct
      | some v => selfCheck v (buildInstr v w)
  else .error .compressed

/-! ## Bytes -/

/-- Why a byte string does not begin with an instruction. -/
inductive ByteError where
  /-- Fewer than the 4 bytes a fetch reads (R41). -/
  | truncated
  /-- Four bytes whose word the decoder rejects. -/
  | rejected (e : DecodeError)
  deriving DecidableEq, Repr

/-- The word whose bytes, lowest address first, are `b0 b1 b2 b3` (little-endian, R41, R44). -/
def wordOfBytes (b0 b1 b2 b3 : Byte) : InstrWord := b3 ++ b2 ++ b1 ++ b0

/-- The four bytes of a word, lowest address first (R44). -/
def bytesOfWord (w : InstrWord) : List Byte :=
  [w.extractLsb' 0 8, w.extractLsb' 8 8, w.extractLsb' 16 8, w.extractLsb' 24 8]

/-- Decode the instruction at the head of any byte string; the rest of the bytes is returned with it. -/
def decodeBytes (bytes : List Byte) : Except ByteError (Instr × List Byte) :=
  match bytes with
  | b0 :: b1 :: b2 :: b3 :: rest =>
    match decode (wordOfBytes b0 b1 b2 b3) with
    | .ok i => .ok (i, rest)
    | .error e => .error (.rejected e)
  | _ => .error .truncated

/-- The instruction the decoder reads from an instruction whose bits, numbered as spec/opcode_table.json numbers them,
are `w`; bits from `nbits` up are 0. The word is laid out as memory holds it and read back by `decodeBytes`. -/
def decodeTableWord (nbits w : Nat) : Option Instr :=
  match decodeBytes (bytesOfWord (BitVec.ofNat 32 (w % 2 ^ nbits))) with
  | .ok (i, _) => some i
  | .error _ => none

/-! ## Encoder -/

/-- R-type layout (R62). -/
def rType (funct7 : BitVec 7) (rs2 rs1 : RegIdx) (funct3 : BitVec 3) (rd : RegIdx) (opcode : BitVec 7) : InstrWord :=
  funct7 ++ rs2 ++ rs1 ++ funct3 ++ rd ++ opcode
/-- I-type layout (R63). -/
def iType (imm : BitVec 12) (rs1 : RegIdx) (funct3 : BitVec 3) (rd : RegIdx) (opcode : BitVec 7) : InstrWord :=
  imm ++ rs1 ++ funct3 ++ rd ++ opcode
/-- I-shift layout (R63). -/
def shiftType (funct6 : BitVec 6) (shamt : BitVec 6) (rs1 : RegIdx) (funct3 : BitVec 3) (rd : RegIdx)
    (opcode : BitVec 7) : InstrWord :=
  funct6 ++ shamt ++ rs1 ++ funct3 ++ rd ++ opcode
/-- S-type layout (R64). -/
def sType (imm : BitVec 12) (rs2 rs1 : RegIdx) (funct3 : BitVec 3) (opcode : BitVec 7) : InstrWord :=
  imm.extractLsb' 5 7 ++ rs2 ++ rs1 ++ funct3 ++ imm.extractLsb' 0 5 ++ opcode
/-- B-type layout (R64). -/
def bType (imm : BitVec 13) (rs2 rs1 : RegIdx) (funct3 : BitVec 3) (opcode : BitVec 7) : InstrWord :=
  imm.extractLsb' 12 1 ++ imm.extractLsb' 5 6 ++ rs2 ++ rs1 ++ funct3 ++ imm.extractLsb' 1 4 ++
    imm.extractLsb' 11 1 ++ opcode
/-- U-type layout (R65). -/
def uType (imm20 : BitVec 20) (rd : RegIdx) (opcode : BitVec 7) : InstrWord := imm20 ++ rd ++ opcode
/-- J-type layout (R65). -/
def jType (imm : BitVec 21) (rd : RegIdx) (opcode : BitVec 7) : InstrWord :=
  imm.extractLsb' 20 1 ++ imm.extractLsb' 1 10 ++ imm.extractLsb' 11 1 ++ imm.extractLsb' 12 8 ++ rd ++ opcode

/-- The word of an instruction, from the layouts of R62 to R65 and the values of R73 to R80. -/
def encode (i : Instr) : InstrWord :=
  match i with
  | .lui rd imm20 => uType imm20 rd Family.lui.opcode
  | .auipc rd imm20 => uType imm20 rd Family.auipc.opcode
  | .jal rd offset => jType offset rd Family.jal.opcode
  | .jalr rd rs1 imm => iType imm rs1 0b000#3 rd Family.jalr.opcode
  | .beq rs1 rs2 offset => bType offset rs2 rs1 0b000#3 Family.branch.opcode
  | .bne rs1 rs2 offset => bType offset rs2 rs1 0b001#3 Family.branch.opcode
  | .blt rs1 rs2 offset => bType offset rs2 rs1 0b100#3 Family.branch.opcode
  | .bge rs1 rs2 offset => bType offset rs2 rs1 0b101#3 Family.branch.opcode
  | .bltu rs1 rs2 offset => bType offset rs2 rs1 0b110#3 Family.branch.opcode
  | .bgeu rs1 rs2 offset => bType offset rs2 rs1 0b111#3 Family.branch.opcode
  | .lb rd rs1 imm => iType imm rs1 0b000#3 rd Family.load.opcode
  | .lh rd rs1 imm => iType imm rs1 0b001#3 rd Family.load.opcode
  | .lw rd rs1 imm => iType imm rs1 0b010#3 rd Family.load.opcode
  | .ld rd rs1 imm => iType imm rs1 0b011#3 rd Family.load.opcode
  | .lbu rd rs1 imm => iType imm rs1 0b100#3 rd Family.load.opcode
  | .lhu rd rs1 imm => iType imm rs1 0b101#3 rd Family.load.opcode
  | .sb rs1 rs2 imm => sType imm rs2 rs1 0b000#3 Family.store.opcode
  | .sh rs1 rs2 imm => sType imm rs2 rs1 0b001#3 Family.store.opcode
  | .sw rs1 rs2 imm => sType imm rs2 rs1 0b010#3 Family.store.opcode
  | .sd rs1 rs2 imm => sType imm rs2 rs1 0b011#3 Family.store.opcode
  | .addi rd rs1 imm => iType imm rs1 0b000#3 rd Family.opImm.opcode
  | .slti rd rs1 imm => iType imm rs1 0b010#3 rd Family.opImm.opcode
  | .sltiu rd rs1 imm => iType imm rs1 0b011#3 rd Family.opImm.opcode
  | .xori rd rs1 imm => iType imm rs1 0b100#3 rd Family.opImm.opcode
  | .ori rd rs1 imm => iType imm rs1 0b110#3 rd Family.opImm.opcode
  | .andi rd rs1 imm => iType imm rs1 0b111#3 rd Family.opImm.opcode
  | .slli rd rs1 shamt => shiftType 0b000000#6 shamt rs1 0b001#3 rd Family.opImm.opcode
  | .srli rd rs1 shamt => shiftType 0b000000#6 shamt rs1 0b101#3 rd Family.opImm.opcode
  | .srai rd rs1 shamt => shiftType 0b010000#6 shamt rs1 0b101#3 rd Family.opImm.opcode
  | .add rd rs1 rs2 => rType 0b0000000#7 rs2 rs1 0b000#3 rd Family.op.opcode
  | .sub rd rs1 rs2 => rType 0b0100000#7 rs2 rs1 0b000#3 rd Family.op.opcode
  | .sll rd rs1 rs2 => rType 0b0000000#7 rs2 rs1 0b001#3 rd Family.op.opcode
  | .slt rd rs1 rs2 => rType 0b0000000#7 rs2 rs1 0b010#3 rd Family.op.opcode
  | .sltu rd rs1 rs2 => rType 0b0000000#7 rs2 rs1 0b011#3 rd Family.op.opcode
  | .xor rd rs1 rs2 => rType 0b0000000#7 rs2 rs1 0b100#3 rd Family.op.opcode
  | .srl rd rs1 rs2 => rType 0b0000000#7 rs2 rs1 0b101#3 rd Family.op.opcode
  | .sra rd rs1 rs2 => rType 0b0100000#7 rs2 rs1 0b101#3 rd Family.op.opcode
  | .or rd rs1 rs2 => rType 0b0000000#7 rs2 rs1 0b110#3 rd Family.op.opcode
  | .and rd rs1 rs2 => rType 0b0000000#7 rs2 rs1 0b111#3 rd Family.op.opcode
  | .ecall => 0x00000073#32
  | .addiw rd rs1 imm => iType imm rs1 0b000#3 rd Family.opImm32.opcode
  | .mul rd rs1 rs2 => rType 0b0000001#7 rs2 rs1 0b000#3 rd Family.op.opcode
  | .mulh rd rs1 rs2 => rType 0b0000001#7 rs2 rs1 0b001#3 rd Family.op.opcode
  | .div rd rs1 rs2 => rType 0b0000001#7 rs2 rs1 0b100#3 rd Family.op.opcode
  | .rem rd rs1 rs2 => rType 0b0000001#7 rs2 rs1 0b110#3 rd Family.op.opcode

/-- The bytes of an instruction as memory holds them, lowest address first (R44). -/
def encodeBytes (i : Instr) : List Byte := bytesOfWord (encode i)

end Sys2Proof
end

