-- ==== Sys2Proof/Machine/State.lean ====
section
/-! DEFINITION. The whole state a model carries (10_state.md R38): pc, the register file, the run status, and the memory
port's state, which is the byte store and the port's verdict `MemAdmit` (20_memory.md R40). All of it is plain data. -/

namespace Sys2Proof.Machine

/-- A terminal fault: its kind (60_exceptions.md R160) with the info recorded for it (R161). -/
inductive FaultRecord where
  /-- Fetch with pc[0] = 1 (R90): the pc value. -/
  | misalignedProgramCounter (a : Word)
  /-- A 16-bit word or an opcode of no family (R60, R83): address, word, opcode. -/
  | unknownOpcode (a : Word) (w : InstrWord) (opcode : BitVec 7)
  /-- A family's word with no variant (R84): address, word, opcode, funct3, funct7. -/
  | unknownFunct (a : Word) (w : InstrWord) (opcode : BitVec 7) (funct3 : BitVec 3) (funct7 : BitVec 7)
  /-- The decoder's self-check failed (R85): address, word, the dispatched variant, the table's mnemonic. -/
  | decoderConsistencyFault (a : Word) (w : InstrWord) (variant : Variant) (mnemonic : String)
  /-- The port refused an access (R41 to R43): the instruction's address, the access kind, the effective address, the
  width. -/
  | memoryFault (a : Word) (kind : AccessKind) (ea : Word) (width : Width)
  /-- An ECALL number with no defined behaviour (R154): address, number. -/
  | unsupportedSyscall (a : Word) (num : Word)
  deriving DecidableEq, Repr

/-- The run status (10_state.md R34). -/
inductive Status where
  /-- A step may be taken. -/
  | running
  /-- Ended by the exit system call, with the 64-bit exit code (R153). -/
  | exited (code : Word)
  /-- Ended by a terminal fault (R160, R162). -/
  | faulted (f : FaultRecord)
  deriving DecidableEq, Repr

/-- The port's byte store: (address, byte) cells in canonical form (Memory.wf in Ops.lean). -/
abbrev Memory := List Host.Cell

/-- The state of the machine between two steps (R38). -/
structure State where
  /-- The address of the next instruction to fetch (R26). -/
  pc : Word
  /-- x0 to x31 (R20), read and written through readReg and writeReg only; slot 0 is never used (R22, R23; log 13). -/
  regs : Vector Word 32
  /-- The run status (R34). -/
  status : Status
  /-- The byte store `mem` (R40). -/
  mem : Memory
  /-- The verdict `MemAdmit` (R40), as a table; no step changes it (log 2). -/
  verdict : List AdmitRow
  deriving DecidableEq, Repr

/-- Why the machine has no next step. The spec's own six faults are next states whose status is `faulted` (R98; log 1);
what is left is the state from which no step is defined. -/
inductive Fault where
  /-- Raised by `step` alone, in a state whose status is not Running: "A step is taken only in `Running`" (R34), the
  `stuck` of 93_implementation_defined.md item 13. SAFE: the machine stops where the spec defines no step. -/
  | notRunning
  deriving DecidableEq, Repr

/-- Why an instruction has no meaning. -/
inductive Refusal where
  /-- Raised by an arm of `exec` whose instruction is not modelled yet; no arm of this model does. SAFE: the machine
  stops. -/
  | notModelled (mnemonic : String)
  deriving DecidableEq, Repr

/-- What a meaning and a step answer. -/
abbrev Answer := Host.Outcome State Fault Refusal

/-- The machine right after reset (R37, R190): pc 0, every register 0, Running. The memory image and `MemAdmit` are OPEN
there; this state takes an image with nothing listed (log 4) and the table that admits every access (log 3). -/
def State.reset : State :=
  { pc := Config.resetPc
    regs := Vector.replicate 32 Config.resetRegister
    status := .running
    mem := []
    verdict := Config.admitEverything }

end Sys2Proof.Machine
end

