-- ==== Sys2Proof/Machine/Ops.lean ====
section
/-! DEFINITION. The named operations over registers and memory (10_state.md R22, R23; 20_memory.md R40 to R43), and
raising a fault, the machine's one way of taking an exception (40_datapath.md R98, 60_exceptions.md R162, R166). -/

namespace Sys2Proof.Machine

/-! ## Registers, pc, status -/

/-- `x[i]`: register 0 reads as 0 whatever its slot holds (R22). -/
def State.readReg (s : State) (i : RegIdx) : Word :=
  if i = 0#5 then 0#64 else s.regs[i.toNat]'i.isLt

/-- `x[i] <- v`: a write to register 0 is discarded (R23). -/
def State.writeReg (s : State) (i : RegIdx) (v : Word) : State :=
  if i = 0#5 then s else { s with regs := s.regs.set i.toNat v i.isLt }

/-- `pc <- target` (R12). -/
def State.setPc (s : State) (target : Word) : State := { s with pc := target }

/-- Set the run status (R34). -/
def State.setStatus (s : State) (status : Status) : State := { s with status := status }

/-- Replace the byte store. -/
def State.setMem (s : State) (mem : Memory) : State := { s with mem := mem }

/-- The address of the following instruction, `a + 4` modulo 2^64 (R28). -/
def nextPc (a : Word) : Word := a + 4#64

/-- Fetch's advance of the pc: `pc <- a + 4` (R91). -/
def State.advancePc (s : State) : State := s.setPc (nextPc s.pc)

/-! ## The byte store -/

/-- The byte at an address of the store. -/
def Memory.read : Memory → Nat → Byte
  | [], _ => Config.unlistedByte
  | (k, b) :: rest, a => if k = a then b else Memory.read rest a

/-- Put one byte at an address. A cell that would equal what an unlisted address reads as is not listed. -/
def Memory.write : Memory → Nat → Byte → Memory
  | [], a, v => if v = Config.unlistedByte then [] else [(a, v)]
  | (k, b) :: rest, a, v =>
    if a < k then
      if v = Config.unlistedByte then (k, b) :: rest else (a, v) :: (k, b) :: rest
    else if a = k then
      if v = Config.unlistedByte then rest else (a, v) :: rest
    else (k, b) :: Memory.write rest a v

/-- The canonical form: addresses strictly rising and below 2^64, no cell equal to what an unlisted address reads as. -/
abbrev Memory.wf (m : Memory) : Prop :=
  m.Pairwise (fun c d => c.1 < d.1) ∧ ∀ c ∈ m, c.1 < 2 ^ 64 ∧ c.2 ≠ Config.unlistedByte

/-- `mem[addr+n-1] ∥ … ∥ mem[addr]`, addresses modulo 2^64, the lowest address in the lowest bits (R42, R44). -/
def Memory.readLE (m : Memory) (addr : Word) : (n : Nat) → BitVec (8 * n)
  | 0 => 0#0
  | n + 1 => (Memory.readLE m (addr + 1#64) n ++ m.read addr.toNat : BitVec (8 * n + 8))

/-- `mem[addr+i] <- v[8i+7:8i]` for i = 0 to n-1, addresses modulo 2^64 (R43, R44). -/
def Memory.writeLE (m : Memory) (addr : Word) : (n : Nat) → BitVec (8 * n) → Memory
  | 0, _ => m
  | n + 1, v => Memory.writeLE (m.write addr.toNat (v.extractLsb' 0 8)) (addr + 1#64) n (v.extractLsb' 8 (8 * n))

/-- The byte at a 64-bit address, `mem[addr]` (R40). -/
def State.byteAt (s : State) (addr : Word) : Byte := s.mem.read addr.toNat

/-- `addr` is one of the `n` bytes of an access at `ea`, addresses modulo 2^64 (R42, R43). -/
def inAccess (ea : Word) (n : Nat) (addr : Word) : Bool := (addr - ea).toNat < n

/-! ## The memory port -/

/-- A row admits the access. -/
def rowAdmits (row : AdmitRow) (kind : AccessKind) (addr : Word) (n : Width) : Bool :=
  row.kind == kind && row.width == n && decide (row.first ≤ addr) && decide (addr ≤ row.last)
    && addr.toNat % row.align == 0

/-- `MemAdmit(kind, addr, n)` of a table: some row admits the access (R40; log 2). -/
def memAdmit (table : List AdmitRow) (kind : AccessKind) (addr : Word) (n : Width) : Bool :=
  table.any fun row => rowAdmits row kind addr n

/-- `Fetch(a)` at the pc: the port's 4 bytes as a word, or `MemoryFault` (R41). -/
def memFetch (s : State) : Except FaultRecord InstrWord :=
  if memAdmit s.verdict .fetch s.pc .word then .ok (s.mem.readLE s.pc 4)
  else .error (.memoryFault s.pc .fetch s.pc .word)

/-- `MemRead(ea, n)` for the instruction at `a` (R42). -/
def memRead (s : State) (a ea : Word) (n : Width) : Except FaultRecord (BitVec (8 * n.bytes)) :=
  if memAdmit s.verdict .load ea n then .ok (s.mem.readLE ea n.bytes)
  else .error (.memoryFault a .load ea n)

/-- `MemWrite(ea, n, v)` for the instruction at `a`: all its bytes or none (R43). -/
def memWrite (s : State) (a ea : Word) (n : Width) (v : BitVec (8 * n.bytes)) : Except FaultRecord State :=
  if memAdmit s.verdict .store ea n then .ok (s.setMem (s.mem.writeLE ea n.bytes v))
  else .error (.memoryFault a .store ea n)

/-! ## Taking an exception

`raise E(info)` ends the run: the status records the fault, nothing else is saved, no mode changes and control goes
nowhere (R98, R161, R166). There is no return from an exception in this core (R167), so nothing stands beside it. -/

/-- `raise E(info)`: keep what the step has written and set the status (R98). -/
def State.raiseFault (s : State) (f : FaultRecord) : State := s.setStatus (.faulted f)

/-- `halt Exited(code)` (R98, R153). -/
def State.haltExited (s : State) (code : Word) : State := s.setStatus (.exited code)

/-- The kinds of fault of R160, without their info. -/
inductive FaultKind where
  | misalignedProgramCounter | unknownOpcode | unknownFunct | decoderConsistencyFault | memoryFault | unsupportedSyscall
  deriving DecidableEq, Repr

/-- The kind of a recorded fault. -/
def FaultRecord.kind : FaultRecord → FaultKind
  | .misalignedProgramCounter _ => .misalignedProgramCounter
  | .unknownOpcode _ _ _ => .unknownOpcode
  | .unknownFunct _ _ _ _ _ => .unknownFunct
  | .decoderConsistencyFault _ _ _ _ => .decoderConsistencyFault
  | .memoryFault _ _ _ _ => .memoryFault
  | .unsupportedSyscall _ _ => .unsupportedSyscall

/-- The fault code `run()` returns for a kind (R160, 92_eei_decisions.md D27). -/
def FaultKind.code : FaultKind → Nat
  | .misalignedProgramCounter => 1
  | .unknownOpcode => 2
  | .unknownFunct => 3
  | .decoderConsistencyFault => 4
  | .memoryFault => 5
  | .unsupportedSyscall => 6

end Sys2Proof.Machine
end

