-- ==== Sys2Proof/Machine/Operands.lean ====
section
/-! DEFINITION. Operand population: the decoded-instruction record (10_state.md R31), filled per family as the table of
30_encoding.md R82 says. Registers are read here, before the instruction's own write (R194). Fields a row of R82 leaves
blank are 0 and never read. -/

namespace Sys2Proof.Machine

/-- The decoded-instruction record (R31); it lives inside one step (R33). -/
structure DecodedRecord where
  variant : Variant
  /-- Meaningful only for variants that write a register. -/
  dest : RegIdx
  op1 : Word
  op2 : Word
  offset : Word
  /-- The address of the instruction. -/
  a : Word
  deriving DecidableEq, Repr

/-- OP: op1 = x[rs1], op2 = x[rs2], dest = rd (R82). -/
def operandsOp (s : State) (v : Variant) (rd rs1 rs2 : RegIdx) : DecodedRecord :=
  { variant := v, dest := rd, op1 := s.readReg rs1, op2 := s.readReg rs2, offset := 0#64, a := s.pc }

/-- OP-IMM non-shift and OP-IMM-32: op1 = x[rs1], op2 = immI, dest = rd (R82). -/
def operandsOpImm (s : State) (v : Variant) (rd rs1 : RegIdx) (imm : BitVec 12) : DecodedRecord :=
  { variant := v, dest := rd, op1 := s.readReg rs1, op2 := sext12 imm, offset := 0#64, a := s.pc }

/-- OP-IMM shift: op1 = x[rs1], op2 = shamtI, dest = rd (R82). -/
def operandsShift (s : State) (v : Variant) (rd rs1 : RegIdx) (shamt : BitVec 6) : DecodedRecord :=
  { variant := v, dest := rd, op1 := s.readReg rs1, op2 := zextShamt shamt, offset := 0#64, a := s.pc }

/-- LUI, AUIPC: op1 = immU, dest = rd (R82). -/
def operandsUpper (s : State) (v : Variant) (rd : RegIdx) (imm20 : BitVec 20) : DecodedRecord :=
  { variant := v, dest := rd, op1 := placeU imm20, op2 := 0#64, offset := 0#64, a := s.pc }

/-- JAL: op1 = immJ, dest = rd (R82). -/
def operandsJal (s : State) (v : Variant) (rd : RegIdx) (offset : BitVec 21) : DecodedRecord :=
  { variant := v, dest := rd, op1 := sextJ offset, op2 := 0#64, offset := 0#64, a := s.pc }

/-- JALR: op1 = x[rs1], op2 = immI, dest = rd (R82). -/
def operandsJalr (s : State) (v : Variant) (rd rs1 : RegIdx) (imm : BitVec 12) : DecodedRecord :=
  { variant := v, dest := rd, op1 := s.readReg rs1, op2 := sext12 imm, offset := 0#64, a := s.pc }

/-- BRANCH: op1 = x[rs1], op2 = x[rs2], offset = immB, no destination (R82). -/
def operandsBranch (s : State) (v : Variant) (rs1 rs2 : RegIdx) (offset : BitVec 13) : DecodedRecord :=
  { variant := v, dest := 0#5, op1 := s.readReg rs1, op2 := s.readReg rs2, offset := sextB offset, a := s.pc }

/-- STORE: op1 = x[rs1] (base), op2 = x[rs2] (value), offset = immS, no destination (R82). -/
def operandsStore (s : State) (v : Variant) (rs1 rs2 : RegIdx) (imm : BitVec 12) : DecodedRecord :=
  { variant := v, dest := 0#5, op1 := s.readReg rs1, op2 := s.readReg rs2, offset := sext12 imm, a := s.pc }

/-- LOAD: op1 = x[rs1] (base), op2 = immI (offset), dest = rd (R82). -/
def operandsLoad (s : State) (v : Variant) (rd rs1 : RegIdx) (imm : BitVec 12) : DecodedRecord :=
  { variant := v, dest := rd, op1 := s.readReg rs1, op2 := sext12 imm, offset := 0#64, a := s.pc }

/-- ECALL: op1 = x[SYSCALL_ARG_REG], op2 = x[SYSCALL_NUM_REG], no destination (R82, R152; log 8). -/
def operandsEcall (s : State) (v : Variant) : DecodedRecord :=
  { variant := v, dest := 0#5, op1 := s.readReg Config.syscallArgReg, op2 := s.readReg Config.syscallNumReg,
    offset := 0#64, a := s.pc }

/-- The memory-address calculator's address of a load: `op1 + op2` modulo 2^64 (R139). -/
def loadAddress (d : DecodedRecord) : Word := d.op1 + d.op2

/-- The memory-address calculator's address of a store: `op1 + offset` modulo 2^64 (R139). -/
def storeAddress (d : DecodedRecord) : Word := d.op1 + d.offset

end Sys2Proof.Machine
end

