-- ==== Sys2Proof/Machine/Retire.lean ====
section
/-! DEFINITION. The stages after decode (40_datapath.md R93 to R98), once for all instructions: what the Execution Unit
yields, memory access, system request, write-back, pc commit. A meaning names its operands and its Execution Unit
function; `retire` does the rest. -/

namespace Sys2Proof.Machine

/-- How a loaded value is extended to 64 bits (R140). -/
inductive Extend where
  | sign | zero
  deriving DecidableEq, Repr

/-- The extension of an n-byte value (R140); LD's 64-bit value is unchanged by either. -/
def extendValue {w : Nat} (ext : Extend) (v : BitVec w) : Word :=
  match ext with
  | .sign => v.signExtend 64
  | .zero => v.setWidth 64

/-- A memory request of the Execution Unit (R93). -/
inductive MemRequest where
  /-- `Load(ea, n, ext)`. -/
  | load (ea : Word) (n : Width) (ext : Extend)
  /-- `Store(ea, n, v)`. -/
  | store (ea : Word) (n : Width) (v : BitVec (8 * n.bytes))

/-- A system request of the Execution Unit: `Syscall(arg, num)` (R152). -/
structure SysRequest where
  arg : Word
  num : Word

/-- What the Execution Unit yields: result, target, memory request, system request, each optional (R93). -/
structure ExecOut where
  result : Option Word := none
  target : Option Word := none
  memreq : Option MemRequest := none
  sysreq : Option SysRequest := none

/-- A result for the destination and nothing else (R100). -/
def ExecOut.value (v : Word) : ExecOut := { result := some v }

/-- Memory-access stage: the state with its store done, and the result, which a load replaces (R94). -/
def memoryStage (s : State) (a : Word) (o : ExecOut) : Except FaultRecord (State × Option Word) :=
  match o.memreq with
  | none => .ok (s, o.result)
  | some (.load ea n ext) =>
    match memRead s a ea n with
    | .ok v => .ok (s, some (extendValue ext v))
    | .error f => .error f
  | some (.store ea n v) =>
    match memWrite s a ea n v with
    | .ok s' => .ok (s', o.result)
    | .error f => .error f

/-- System-call dispatch: exit, or `UnsupportedSyscall`; all 64 bits of the number are compared (R153, R154). -/
def systemCall (s : State) (a : Word) (r : SysRequest) : State :=
  if r.num = Config.exitSyscallNumber then s.haltExited r.arg
  else s.raiseFault (.unsupportedSyscall a r.num)

/-- Write-back stage (R96): nothing for a variant without a result. -/
def writeBack (s : State) (dest : RegIdx) (result : Option Word) : State :=
  match result with
  | some v => s.writeReg dest v
  | none => s

/-- PC commit: a control-transfer target replaces the advanced pc (R97). -/
def commitPc (s : State) (target : Option Word) : State :=
  match target with
  | some t => s.setPc t
  | none => s

/-- The stages of R98 after decode, on the state whose pc Fetch has advanced. -/
def stages (s : State) (d : DecodedRecord) (o : ExecOut) : State :=
  match memoryStage s d.a o with
  | .error f => s.raiseFault f
  | .ok (s', result) =>
    match o.sysreq with
    | some r => systemCall s' d.a r
    | none => commitPc (writeBack s' d.dest result) o.target

/-- The meaning of a decoded instruction: the state it is given has pc = a, so Fetch's `pc <- a + 4` (R91) comes first,
then the stages of R93 to R97. It always answers a next state (log 1, log 12). -/
def retire (s : State) (d : DecodedRecord) (executionUnit : DecodedRecord → ExecOut) : Answer :=
  .next (stages s.advancePc d (executionUnit d))

end Sys2Proof.Machine
end

