-- ==== Sys2Proof/Machine/Alu.lean ====
section
/-! DEFINITION. Integer ALU instructions (41_alu.md R100 to R121). -/

namespace Sys2Proof.Machine

/-- The shift amount, the low 6 bits of an operand: `op2 & 0x3F` (R105, R121). -/
def shiftAmount (op2 : Word) : Nat := (op2 &&& 0x3F#64).toNat

/-! The Execution Unit's functions, each used by the register and the immediate form. -/

/-- `op1 + op2` modulo 2^64 (R101, R103). -/
def unitAdd (d : DecodedRecord) : ExecOut := .value (d.op1 + d.op2)
/-- `op1 - op2` modulo 2^64 (R102). -/
def unitSub (d : DecodedRecord) : ExecOut := .value (d.op1 - d.op2)
/-- `sext_64(trunc_32(op1 + op2))` (R104). -/
def unitAddWord (d : DecodedRecord) : ExecOut := .value (((d.op1 + d.op2).setWidth 32).signExtend 64)
/-- `op1 << (op2 & 0x3F)` (R105, R106). -/
def unitSll (d : DecodedRecord) : ExecOut := .value (d.op1 <<< shiftAmount d.op2)
/-- `op1 >>u (op2 & 0x3F)` (R107, R108). -/
def unitSrl (d : DecodedRecord) : ExecOut := .value (d.op1 >>> shiftAmount d.op2)
/-- `op1 >>s (op2 & 0x3F)` (R109, R110). -/
def unitSra (d : DecodedRecord) : ExecOut := .value (d.op1.sshiftRight (shiftAmount d.op2))
/-- `(op1 <s op2) ? 1 : 0` (R111, R112). -/
def unitSlt (d : DecodedRecord) : ExecOut := .value (boolWord (cmpLtSigned d.op1 d.op2))
/-- `(op1 <u op2) ? 1 : 0` (R113, R114). -/
def unitSltu (d : DecodedRecord) : ExecOut := .value (boolWord (cmpLtUnsigned d.op1 d.op2))
/-- `op1 ^ op2` (R115, R116). -/
def unitXor (d : DecodedRecord) : ExecOut := .value (d.op1 ^^^ d.op2)
/-- `op1 | op2` (R117, R118). -/
def unitOr (d : DecodedRecord) : ExecOut := .value (d.op1 ||| d.op2)
/-- `op1 & op2` (R119, R120). -/
def unitAnd (d : DecodedRecord) : ExecOut := .value (d.op1 &&& d.op2)

/-- ADD (R101). -/
def execAdd (rd rs1 rs2 : RegIdx) (s : State) : Answer := retire s (operandsOp s .add rd rs1 rs2) unitAdd
/-- SUB (R102). -/
def execSub (rd rs1 rs2 : RegIdx) (s : State) : Answer := retire s (operandsOp s .sub rd rs1 rs2) unitSub
/-- SLL (R105). -/
def execSll (rd rs1 rs2 : RegIdx) (s : State) : Answer := retire s (operandsOp s .sll rd rs1 rs2) unitSll
/-- SLT (R111). -/
def execSlt (rd rs1 rs2 : RegIdx) (s : State) : Answer := retire s (operandsOp s .slt rd rs1 rs2) unitSlt
/-- SLTU (R113). -/
def execSltu (rd rs1 rs2 : RegIdx) (s : State) : Answer := retire s (operandsOp s .sltu rd rs1 rs2) unitSltu
/-- XOR (R115). -/
def execXor (rd rs1 rs2 : RegIdx) (s : State) : Answer := retire s (operandsOp s .xor rd rs1 rs2) unitXor
/-- SRL (R107). -/
def execSrl (rd rs1 rs2 : RegIdx) (s : State) : Answer := retire s (operandsOp s .srl rd rs1 rs2) unitSrl
/-- SRA (R109). -/
def execSra (rd rs1 rs2 : RegIdx) (s : State) : Answer := retire s (operandsOp s .sra rd rs1 rs2) unitSra
/-- OR (R117). -/
def execOr (rd rs1 rs2 : RegIdx) (s : State) : Answer := retire s (operandsOp s .or rd rs1 rs2) unitOr
/-- AND (R119). -/
def execAnd (rd rs1 rs2 : RegIdx) (s : State) : Answer := retire s (operandsOp s .and rd rs1 rs2) unitAnd

/-- ADDI (R103). -/
def execAddi (rd rs1 : RegIdx) (imm : BitVec 12) (s : State) : Answer :=
  retire s (operandsOpImm s .addi rd rs1 imm) unitAdd
/-- ADDIW (R104). -/
def execAddiw (rd rs1 : RegIdx) (imm : BitVec 12) (s : State) : Answer :=
  retire s (operandsOpImm s .addiw rd rs1 imm) unitAddWord
/-- SLTI (R112). -/
def execSlti (rd rs1 : RegIdx) (imm : BitVec 12) (s : State) : Answer :=
  retire s (operandsOpImm s .slti rd rs1 imm) unitSlt
/-- SLTIU: the immediate is sign-extended, then compared unsigned (R114). -/
def execSltiu (rd rs1 : RegIdx) (imm : BitVec 12) (s : State) : Answer :=
  retire s (operandsOpImm s .sltiu rd rs1 imm) unitSltu
/-- XORI (R116). -/
def execXori (rd rs1 : RegIdx) (imm : BitVec 12) (s : State) : Answer :=
  retire s (operandsOpImm s .xori rd rs1 imm) unitXor
/-- ORI (R118). -/
def execOri (rd rs1 : RegIdx) (imm : BitVec 12) (s : State) : Answer :=
  retire s (operandsOpImm s .ori rd rs1 imm) unitOr
/-- ANDI (R120). -/
def execAndi (rd rs1 : RegIdx) (imm : BitVec 12) (s : State) : Answer :=
  retire s (operandsOpImm s .andi rd rs1 imm) unitAnd

/-- SLLI (R106). -/
def execSlli (rd rs1 : RegIdx) (shamt : BitVec 6) (s : State) : Answer :=
  retire s (operandsShift s .slli rd rs1 shamt) unitSll
/-- SRLI (R108). -/
def execSrli (rd rs1 : RegIdx) (shamt : BitVec 6) (s : State) : Answer :=
  retire s (operandsShift s .srli rd rs1 shamt) unitSrl
/-- SRAI (R110). -/
def execSrai (rd rs1 : RegIdx) (shamt : BitVec 6) (s : State) : Answer :=
  retire s (operandsShift s .srai rd rs1 shamt) unitSra

end Sys2Proof.Machine
end

