-- ==== Sys2Proof/Machine/Branch.lean ====
section
/-! DEFINITION. Conditional branches (44_branches.md R132 to R138). -/

namespace Sys2Proof.Machine

/-- The branch rule: the target `a + offset` when the relation holds, nothing otherwise (R132). -/
def unitBranch (cond : Word → Word → Bool) (d : DecodedRecord) : ExecOut :=
  if cond d.op1 d.op2 then { target := some (d.a + d.offset) } else {}

/-- BEQ (R133). -/
def execBeq (rs1 rs2 : RegIdx) (offset : BitVec 13) (s : State) : Answer :=
  retire s (operandsBranch s .beq rs1 rs2 offset) (unitBranch cmpEq)
/-- BNE (R134). -/
def execBne (rs1 rs2 : RegIdx) (offset : BitVec 13) (s : State) : Answer :=
  retire s (operandsBranch s .bne rs1 rs2 offset) (unitBranch fun x y => !cmpEq x y)
/-- BLT (R135). -/
def execBlt (rs1 rs2 : RegIdx) (offset : BitVec 13) (s : State) : Answer :=
  retire s (operandsBranch s .blt rs1 rs2 offset) (unitBranch cmpLtSigned)
/-- BGE (R136). -/
def execBge (rs1 rs2 : RegIdx) (offset : BitVec 13) (s : State) : Answer :=
  retire s (operandsBranch s .bge rs1 rs2 offset) (unitBranch fun x y => !cmpLtSigned x y)
/-- BLTU (R137). -/
def execBltu (rs1 rs2 : RegIdx) (offset : BitVec 13) (s : State) : Answer :=
  retire s (operandsBranch s .bltu rs1 rs2 offset) (unitBranch cmpLtUnsigned)
/-- BGEU (R138). -/
def execBgeu (rs1 rs2 : RegIdx) (offset : BitVec 13) (s : State) : Answer :=
  retire s (operandsBranch s .bgeu rs1 rs2 offset) (unitBranch fun x y => !cmpLtUnsigned x y)

end Sys2Proof.Machine
end

