-- ==== Sys2Proof/Machine/Jump.lean ====
section
/-! DEFINITION. Upper-immediate instructions and jumps (43_upper_and_jumps.md R127 to R131). Targets and the AUIPC base
are relative to the instruction's own address `a`; the link is `a + 4` (R127). -/

namespace Sys2Proof.Machine

/-- LUI's result: the placed immediate (R128). -/
def unitLui (d : DecodedRecord) : ExecOut := .value d.op1
/-- AUIPC's result: `a + op1` (R129). -/
def unitAuipc (d : DecodedRecord) : ExecOut := .value (d.a + d.op1)
/-- JAL: link `a + 4`, target `a + op1` (R130). -/
def unitJal (d : DecodedRecord) : ExecOut := { result := some (nextPc d.a), target := some (d.a + d.op1) }
/-- JALR: link `a + 4`, target `(op1 + op2) & ~1` (R131). -/
def unitJalr (d : DecodedRecord) : ExecOut :=
  { result := some (nextPc d.a), target := some ((d.op1 + d.op2) &&& ~~~1#64) }

/-- LUI (R128). -/
def execLui (rd : RegIdx) (imm20 : BitVec 20) (s : State) : Answer :=
  retire s (operandsUpper s .lui rd imm20) unitLui
/-- AUIPC (R129). -/
def execAuipc (rd : RegIdx) (imm20 : BitVec 20) (s : State) : Answer :=
  retire s (operandsUpper s .auipc rd imm20) unitAuipc
/-- JAL (R130). -/
def execJal (rd : RegIdx) (offset : BitVec 21) (s : State) : Answer :=
  retire s (operandsJal s .jal rd offset) unitJal
/-- JALR (R131). -/
def execJalr (rd rs1 : RegIdx) (imm : BitVec 12) (s : State) : Answer :=
  retire s (operandsJalr s .jalr rd rs1 imm) unitJalr

end Sys2Proof.Machine
end

