-- ==== Sys2Proof/Machine/LoadStore.lean ====
section
/-! DEFINITION. Loads and stores (45_loads_stores.md R139 to R151). -/

namespace Sys2Proof.Machine

/-- The request of a load: `Load(ea, n, ext)` (R140). -/
def unitLoad (n : Width) (ext : Extend) (d : DecodedRecord) : ExecOut :=
  { memreq := some (.load (loadAddress d) n ext) }

/-- The request of a store: `Store(ea, n, trunc_8n(op2))` (R147). -/
def unitStore (n : Width) (d : DecodedRecord) : ExecOut :=
  { memreq := some (.store (storeAddress d) n (d.op2.setWidth (8 * n.bytes))) }

/-- LB (R141). -/
def execLb (rd rs1 : RegIdx) (imm : BitVec 12) (s : State) : Answer :=
  retire s (operandsLoad s .lb rd rs1 imm) (unitLoad .byte .sign)
/-- LH (R142). -/
def execLh (rd rs1 : RegIdx) (imm : BitVec 12) (s : State) : Answer :=
  retire s (operandsLoad s .lh rd rs1 imm) (unitLoad .half .sign)
/-- LW (R143). -/
def execLw (rd rs1 : RegIdx) (imm : BitVec 12) (s : State) : Answer :=
  retire s (operandsLoad s .lw rd rs1 imm) (unitLoad .word .sign)
/-- LD: the 64-bit value needs no extension (R144). -/
def execLd (rd rs1 : RegIdx) (imm : BitVec 12) (s : State) : Answer :=
  retire s (operandsLoad s .ld rd rs1 imm) (unitLoad .double .zero)
/-- LBU (R145). -/
def execLbu (rd rs1 : RegIdx) (imm : BitVec 12) (s : State) : Answer :=
  retire s (operandsLoad s .lbu rd rs1 imm) (unitLoad .byte .zero)
/-- LHU (R146). -/
def execLhu (rd rs1 : RegIdx) (imm : BitVec 12) (s : State) : Answer :=
  retire s (operandsLoad s .lhu rd rs1 imm) (unitLoad .half .zero)

/-- SB (R148). -/
def execSb (rs1 rs2 : RegIdx) (imm : BitVec 12) (s : State) : Answer :=
  retire s (operandsStore s .sb rs1 rs2 imm) (unitStore .byte)
/-- SH (R149). -/
def execSh (rs1 rs2 : RegIdx) (imm : BitVec 12) (s : State) : Answer :=
  retire s (operandsStore s .sh rs1 rs2 imm) (unitStore .half)
/-- SW (R150). -/
def execSw (rs1 rs2 : RegIdx) (imm : BitVec 12) (s : State) : Answer :=
  retire s (operandsStore s .sw rs1 rs2 imm) (unitStore .word)
/-- SD (R151). -/
def execSd (rs1 rs2 : RegIdx) (imm : BitVec 12) (s : State) : Answer :=
  retire s (operandsStore s .sd rs1 rs2 imm) (unitStore .double)

end Sys2Proof.Machine
end

