-- ==== Sys2Proof/Machine/MulDiv.lean ====
section
/-! DEFINITION. Multiply, divide and remainder (42_muldiv.md R122 to R126). Every operand pair has a result and none
faults (60_exceptions.md R164). -/

namespace Sys2Proof.Machine

/-- The exact signed product, as 128 bits (R122, R123). -/
def signedProduct (op1 op2 : Word) : BitVec 128 := BitVec.ofInt 128 (op1.toInt * op2.toInt)

/-- The most negative 64-bit value, the dividend of the overflow case (R124, R125). -/
def mostNegative : Word := 0x8000000000000000#64

/-- The 64-bit value of -1, the divisor of the overflow case and the result of dividing by zero (R124). -/
def minusOne : Word := 0xFFFFFFFFFFFFFFFF#64

/-- The quotient of R124: by zero -1; most-negative by -1 unchanged; else truncated toward zero (D15; log 9). -/
def quotient (op1 op2 : Word) : Word :=
  if op2 = 0#64 then minusOne
  else if op1 = mostNegative ∧ op2 = minusOne then mostNegative
  else BitVec.ofInt 64 (op1.toInt.tdiv op2.toInt)

/-- The remainder of R125: by zero the dividend; most-negative by -1 zero; else of the truncated quotient (D15; log 9). -/
def remainder (op1 op2 : Word) : Word :=
  if op2 = 0#64 then op1
  else if op1 = mostNegative ∧ op2 = minusOne then 0#64
  else BitVec.ofInt 64 (op1.toInt - op2.toInt * op1.toInt.tdiv op2.toInt)

/-- The product's low 64 bits (R122). -/
def unitMul (d : DecodedRecord) : ExecOut := .value ((signedProduct d.op1 d.op2).extractLsb' 0 64)
/-- The product's high 64 bits (R123). -/
def unitMulh (d : DecodedRecord) : ExecOut := .value ((signedProduct d.op1 d.op2).extractLsb' 64 64)
/-- The quotient (R124). -/
def unitDiv (d : DecodedRecord) : ExecOut := .value (quotient d.op1 d.op2)
/-- The remainder (R125). -/
def unitRem (d : DecodedRecord) : ExecOut := .value (remainder d.op1 d.op2)

/-- MUL (R122). -/
def execMul (rd rs1 rs2 : RegIdx) (s : State) : Answer := retire s (operandsOp s .mul rd rs1 rs2) unitMul
/-- MULH (R123). -/
def execMulh (rd rs1 rs2 : RegIdx) (s : State) : Answer := retire s (operandsOp s .mulh rd rs1 rs2) unitMulh
/-- DIV (R124). -/
def execDiv (rd rs1 rs2 : RegIdx) (s : State) : Answer := retire s (operandsOp s .div rd rs1 rs2) unitDiv
/-- REM (R125). -/
def execRem (rd rs1 rs2 : RegIdx) (s : State) : Answer := retire s (operandsOp s .rem rd rs1 rs2) unitRem

end Sys2Proof.Machine
end

