-- ==== Sys2Proof/Machine/System.lean ====
section
/-! DEFINITION. ECALL (46_system.md R152 to R154): the exit system call ends the run, every other number is
`UnsupportedSyscall`. -/

namespace Sys2Proof.Machine

/-- `Syscall(arg = op1, num = op2)` (R152). -/
def unitEcall (d : DecodedRecord) : ExecOut := { sysreq := some { arg := d.op1, num := d.op2 } }

/-- ECALL (R152). -/
def execEcall (s : State) : Answer := retire s (operandsEcall s .ecall) unitEcall

end Sys2Proof.Machine
end

