-- ==== Sys2Proof/Machine/Fetch.lean ====
section
/-! DEFINITION. The stages before execute (40_datapath.md R90 to R92): the pc check, the fetch, the length test, decode,
and what each fault of theirs leaves behind. -/

namespace Sys2Proof.Machine

/-- The Fetch Record (10_state.md R32); it lives inside one step (R33). -/
structure FetchRecord where
  a : Word
  w : InstrWord
  /-- 2 or 4; only length 4 is executed (R60). -/
  length : Nat
  deriving DecidableEq, Repr

/-- Fetch stage (R90, R91): the pc check, the port's word, its length. A fault here leaves pc = a. -/
def fetchStage (s : State) : Except FaultRecord FetchRecord :=
  if s.pc.getLsbD 0 then .error (.misalignedProgramCounter s.pc)
  else
    match memFetch s with
    | .error f => .error f
    | .ok w => .ok { a := s.pc, w := w, length := if isFourByte w then 4 else 2 }

/-- The fault a decoder's rejection of the word at `a` raises, with its info (R83 to R85, R161). -/
def decodeFault (a : Word) (w : InstrWord) (e : DecodeError) : FaultRecord :=
  match e with
  | .compressed => .unknownOpcode a w (opcodeOf w)
  | .unknownOpcode => .unknownOpcode a w (opcodeOf w)
  | .unknownFunct => .unknownFunct a w (opcodeOf w) (funct3Of w) (funct7Of w)
  | .inconsistent variant mnemonic => .decoderConsistencyFault a w variant mnemonic

/-- The state after Fetch: the pc is advanced past a 4-byte word; a 16-bit word is fatal before that (R60, R91; log 10). -/
def afterFetch (s : State) (r : FetchRecord) : State := if r.length = 4 then s.advancePc else s

/-- Fetch and decode: the instruction to execute, or the state in which the step's fault has ended the run. -/
def frontEnd (s : State) : Except State Instr :=
  match fetchStage s with
  | .error f => .error (s.raiseFault f)
  | .ok r =>
    match decode r.w with
    | .ok i => .ok i
    | .error e => .error ((afterFetch s r).raiseFault (decodeFault r.a r.w e))

end Sys2Proof.Machine
end

