-- ==== Sys2Proof/Machine/Step.lean ====
section
/-! DEFINITION. One step (40_datapath.md R90 to R98), and how an instruction is put where the next step fetches. -/

namespace Sys2Proof.Machine

/-- `step()` (R98): while Running, fetch and decode, and run the instruction; a fault of the front end is the state it
leaves (log 1). From Exited and Faulted no step is defined (R34). -/
def step (s : State) : Host.Outcome State Fault Refusal :=
  match s.status with
  | .running =>
    match frontEnd s with
    | .ok i => exec i s
    | .error ended => .next ended
  | .exited _ => .fault .notRunning
  | .faulted _ => .fault .notRunning

/-- The state with the instruction of bits `w` stored where `step` fetches next: the four bytes at pc, little-endian.
It stands for the external loader (R192; log 5). -/
def State.withFetchWord (s : State) (nbits w : Nat) : State :=
  s.setMem (s.mem.writeLE s.pc 4 (BitVec.ofNat 32 (w % 2 ^ nbits)))

end Sys2Proof.Machine
end

