-- ==== Sys2Proof/Assembly.lean ====
section
/-! DEFINITION. Notation only, no semantics: the assembler syntax of 30_encoding.md R88, the ABI aliases of 10_state.md
R21 and the pseudo-instruction expansions of R89 (all of them general knowledge by the spec's own mark; log 20). -/

namespace Sys2Proof

/-- The architectural name `x<n>` of a register (R21, R88). -/
def regName (i : RegIdx) : String := "x" ++ toString i.toNat

/-- The standard ABI alias of a register, for comments and examples only (R21). -/
def abiName (i : RegIdx) : String :=
  (["zero", "ra", "sp", "gp", "tp", "t0", "t1", "t2", "s0", "s1"] ++
    ["a0", "a1", "a2", "a3", "a4", "a5", "a6", "a7"] ++
    ["s2", "s3", "s4", "s5", "s6", "s7", "s8", "s9", "s10", "s11"] ++
    ["t3", "t4", "t5", "t6"]).getD i.toNat ""

/-- The operands of an instruction as R88 writes them. -/
def asmOperands : Instr → List String
  | .lui rd imm20 | .auipc rd imm20 => [regName rd, toString imm20.toNat]
  | .jal rd offset => [regName rd, toString offset.toInt]
  | .jalr rd rs1 imm | .lb rd rs1 imm | .lh rd rs1 imm | .lw rd rs1 imm | .ld rd rs1 imm | .lbu rd rs1 imm
  | .lhu rd rs1 imm => [regName rd, toString imm.toInt ++ "(" ++ regName rs1 ++ ")"]
  | .sb rs1 rs2 imm | .sh rs1 rs2 imm | .sw rs1 rs2 imm | .sd rs1 rs2 imm =>
    [regName rs2, toString imm.toInt ++ "(" ++ regName rs1 ++ ")"]
  | .beq rs1 rs2 offset | .bne rs1 rs2 offset | .blt rs1 rs2 offset | .bge rs1 rs2 offset | .bltu rs1 rs2 offset
  | .bgeu rs1 rs2 offset => [regName rs1, regName rs2, toString offset.toInt]
  | .addi rd rs1 imm | .slti rd rs1 imm | .sltiu rd rs1 imm | .xori rd rs1 imm | .ori rd rs1 imm | .andi rd rs1 imm
  | .addiw rd rs1 imm => [regName rd, regName rs1, toString imm.toInt]
  | .slli rd rs1 shamt | .srli rd rs1 shamt | .srai rd rs1 shamt => [regName rd, regName rs1, toString shamt.toNat]
  | .add rd rs1 rs2 | .sub rd rs1 rs2 | .sll rd rs1 rs2 | .slt rd rs1 rs2 | .sltu rd rs1 rs2 | .xor rd rs1 rs2
  | .srl rd rs1 rs2 | .sra rd rs1 rs2 | .or rd rs1 rs2 | .and rd rs1 rs2 | .mul rd rs1 rs2 | .mulh rd rs1 rs2
  | .div rd rs1 rs2 | .rem rd rs1 rs2 => [regName rd, regName rs1, regName rs2]
  | .ecall => []

/-- An instruction in assembly, in the lower-case spelling R88 calls equivalent. -/
def Instr.asm (i : Instr) : String :=
  i.variant.mnemonic ++ (if asmOperands i = [] then "" else " ") ++ String.intercalate ", " (asmOperands i)

/-- The low 12 bits of a 32-bit value, which ADDI, ADDIW and JALR sign-extend (R89 `lo12`). -/
def lo12 (v : BitVec 32) : BitVec 12 := v.extractLsb' 0 12

/-- The upper 20 bits of a 32-bit value, "adjusted for the sign of lo12" (R89 `hi20`). -/
def hi20 (v : BitVec 32) : BitVec 20 := v.extractLsb' 12 20 + (v.extractLsb' 11 1).setWidth 20

/-- The pseudo-instructions of R89. The 32-bit offsets of `call`, `tail` and `la` are relative to their first word. -/
inductive Pseudo where
  | nop
  | li12 (rd : RegIdx) (imm : BitVec 12)
  | li32 (rd : RegIdx) (imm : BitVec 32)
  | mv (rd rs : RegIdx)
  | not (rd rs : RegIdx)
  | neg (rd rs : RegIdx)
  | sextw (rd rs : RegIdx)
  | seqz (rd rs : RegIdx)
  | snez (rd rs : RegIdx)
  | sltz (rd rs : RegIdx)
  | sgtz (rd rs : RegIdx)
  | beqz (rs : RegIdx) (off : BitVec 13)
  | bnez (rs : RegIdx) (off : BitVec 13)
  | blez (rs : RegIdx) (off : BitVec 13)
  | bgez (rs : RegIdx) (off : BitVec 13)
  | bltz (rs : RegIdx) (off : BitVec 13)
  | bgtz (rs : RegIdx) (off : BitVec 13)
  | bgt (rs rt : RegIdx) (off : BitVec 13)
  | ble (rs rt : RegIdx) (off : BitVec 13)
  | bgtu (rs rt : RegIdx) (off : BitVec 13)
  | bleu (rs rt : RegIdx) (off : BitVec 13)
  | j (off : BitVec 21)
  | jalOff (off : BitVec 21)
  | jr (rs : RegIdx)
  | jalrReg (rs : RegIdx)
  | ret
  | call (off : BitVec 32)
  | tail (off : BitVec 32)
  | la (rd : RegIdx) (off : BitVec 32)
  deriving DecidableEq, Repr

/-- The instructions a pseudo-instruction stands for (R89). -/
def Pseudo.expand : Pseudo → List Instr
  | .nop => [.addi 0#5 0#5 0#12]
  | .li12 rd imm => [.addi rd 0#5 imm]
  | .li32 rd imm => [.lui rd (hi20 imm), .addiw rd rd (lo12 imm)]
  | .mv rd rs => [.addi rd rs 0#12]
  | .not rd rs => [.xori rd rs 0xFFF#12]
  | .neg rd rs => [.sub rd 0#5 rs]
  | .sextw rd rs => [.addiw rd rs 0#12]
  | .seqz rd rs => [.sltiu rd rs 1#12]
  | .snez rd rs => [.sltu rd 0#5 rs]
  | .sltz rd rs => [.slt rd rs 0#5]
  | .sgtz rd rs => [.slt rd 0#5 rs]
  | .beqz rs off => [.beq rs 0#5 off]
  | .bnez rs off => [.bne rs 0#5 off]
  | .blez rs off => [.bge 0#5 rs off]
  | .bgez rs off => [.bge rs 0#5 off]
  | .bltz rs off => [.blt rs 0#5 off]
  | .bgtz rs off => [.blt 0#5 rs off]
  | .bgt rs rt off => [.blt rt rs off]
  | .ble rs rt off => [.bge rt rs off]
  | .bgtu rs rt off => [.bltu rt rs off]
  | .bleu rs rt off => [.bgeu rt rs off]
  | .j off => [.jal 0#5 off]
  | .jalOff off => [.jal 1#5 off]
  | .jr rs => [.jalr 0#5 rs 0#12]
  | .jalrReg rs => [.jalr 1#5 rs 0#12]
  | .ret => [.jalr 0#5 1#5 0#12]
  | .call off => [.auipc 1#5 (hi20 off), .jalr 1#5 1#5 (lo12 off)]
  | .tail off => [.auipc 6#5 (hi20 off), .jalr 0#5 6#5 (lo12 off)]
  | .la rd off => [.auipc rd (hi20 off), .addi rd rd (lo12 off)]

end Sys2Proof
end

