-- ==== Sys2Proof/Machine/HostPort.lean ====
section
/-! DEFINITION. The host interface (60_exceptions.md R169 to R171): `step()`, `run()` and read-only introspection. The
host's other moves are no moves of the model: it writes nothing during a run, and a pause changes nothing (R170). -/

namespace Sys2Proof.Machine

/-- `step()` as the host calls it: from a terminal state no step is taken and nothing changes (R34, R169). -/
def hostStep (s : State) : State :=
  match step s with
  | .next s' => s'
  | .fault _ => s
  | .refused _ => s

/-- `run()` under fuel (R99; log 18): repeat `step()` while the status is Running. -/
def hostRun : Nat → State → State
  | 0, s => s
  | fuel + 1, s =>
    match s.status with
    | .running => hostRun fuel (hostStep s)
    | .exited _ => s
    | .faulted _ => s

/-- What `run()` returns: the system call's exit code, or a fault code (R169). -/
inductive RunResult where
  | exitCode (code : Word)
  | faultCode (code : Nat)
  deriving DecidableEq, Repr

/-- The final status as `run()` returns it; none while the run goes on (R99, R160, R169). -/
def runResult (status : Status) : Option RunResult :=
  match status with
  | .running => none
  | .exited code => some (.exitCode code)
  | .faulted f => some (.faultCode f.kind.code)

/-- Introspection of pc (R169). -/
def hostReadPc (s : State) : Word := s.pc

/-- Introspection of the register file (R169); register 0 shows 0 (R22). -/
def hostReadReg (s : State) (i : RegIdx) : Word := s.readReg i

end Sys2Proof.Machine
end

