-- ==== Sys2Proof/Safety.lean ====
section
/-! DEFINITION. The terms claims are written in: the invariant of every step, a safe run, and what a step's two states
agree on (the frames of 10_state.md R24, R29 and 60_exceptions.md R162). -/

namespace Sys2Proof.Machine

/-- The invariant: the hard-wired register's slot holds 0 (R22, R38), the byte store is in canonical form, and the pc is
even (R27, R127). -/
structure Inv (s : State) : Prop where
  zeroSlot : s.regs[0] = 0#64
  memoryForm : s.mem.wf
  evenPc : s.pc.getLsbD 0 = false

/-- A safe run: under no amount of fuel does it end in a fault (R171: "every `Faulted` status is a failed end"). -/
def SafeRun (s : State) : Prop := ∀ fuel f, (hostRun fuel s).status ≠ .faulted f

/-- The four bytes at an address as an instruction word, the lowest address in the lowest byte (R41). -/
def wordAt (s : State) (a : Word) : InstrWord :=
  s.byteAt (a + 3#64) ++ s.byteAt (a + 2#64) ++ s.byteAt (a + 1#64) ++ s.byteAt a

/-! ## What an instruction names -/

/-- The destination register of the variants that define one (10_state.md R24, 40_datapath.md R96). -/
def destOf : Instr → Option RegIdx
  | .lui rd _ | .auipc rd _ => some rd
  | .jal rd _ => some rd
  | .jalr rd _ _ => some rd
  | .lb rd _ _ | .lh rd _ _ | .lw rd _ _ | .ld rd _ _ | .lbu rd _ _ | .lhu rd _ _ => some rd
  | .addi rd _ _ | .slti rd _ _ | .sltiu rd _ _ | .xori rd _ _ | .ori rd _ _ | .andi rd _ _ | .addiw rd _ _ => some rd
  | .slli rd _ _ | .srli rd _ _ | .srai rd _ _ => some rd
  | .add rd _ _ | .sub rd _ _ | .sll rd _ _ | .slt rd _ _ | .sltu rd _ _ | .xor rd _ _ | .srl rd _ _ => some rd
  | .sra rd _ _ | .or rd _ _ | .and rd _ _ | .mul rd _ _ | .mulh rd _ _ | .div rd _ _ | .rem rd _ _ => some rd
  | .beq _ _ _ | .bne _ _ _ | .blt _ _ _ | .bge _ _ _ | .bltu _ _ _ | .bgeu _ _ _ => none
  | .sb _ _ _ | .sh _ _ _ | .sw _ _ _ | .sd _ _ _ => none
  | .ecall => none

/-- The same instruction with another destination register; unchanged where there is none. -/
def withDest (i : Instr) (d : RegIdx) : Instr :=
  match i with
  | .lui _ imm20 => .lui d imm20
  | .auipc _ imm20 => .auipc d imm20
  | .jal _ offset => .jal d offset
  | .jalr _ rs1 imm => .jalr d rs1 imm
  | .beq rs1 rs2 offset => .beq rs1 rs2 offset
  | .bne rs1 rs2 offset => .bne rs1 rs2 offset
  | .blt rs1 rs2 offset => .blt rs1 rs2 offset
  | .bge rs1 rs2 offset => .bge rs1 rs2 offset
  | .bltu rs1 rs2 offset => .bltu rs1 rs2 offset
  | .bgeu rs1 rs2 offset => .bgeu rs1 rs2 offset
  | .lb _ rs1 imm => .lb d rs1 imm
  | .lh _ rs1 imm => .lh d rs1 imm
  | .lw _ rs1 imm => .lw d rs1 imm
  | .ld _ rs1 imm => .ld d rs1 imm
  | .lbu _ rs1 imm => .lbu d rs1 imm
  | .lhu _ rs1 imm => .lhu d rs1 imm
  | .sb rs1 rs2 imm => .sb rs1 rs2 imm
  | .sh rs1 rs2 imm => .sh rs1 rs2 imm
  | .sw rs1 rs2 imm => .sw rs1 rs2 imm
  | .sd rs1 rs2 imm => .sd rs1 rs2 imm
  | .addi _ rs1 imm => .addi d rs1 imm
  | .slti _ rs1 imm => .slti d rs1 imm
  | .sltiu _ rs1 imm => .sltiu d rs1 imm
  | .xori _ rs1 imm => .xori d rs1 imm
  | .ori _ rs1 imm => .ori d rs1 imm
  | .andi _ rs1 imm => .andi d rs1 imm
  | .slli _ rs1 shamt => .slli d rs1 shamt
  | .srli _ rs1 shamt => .srli d rs1 shamt
  | .srai _ rs1 shamt => .srai d rs1 shamt
  | .add _ rs1 rs2 => .add d rs1 rs2
  | .sub _ rs1 rs2 => .sub d rs1 rs2
  | .sll _ rs1 rs2 => .sll d rs1 rs2
  | .slt _ rs1 rs2 => .slt d rs1 rs2
  | .sltu _ rs1 rs2 => .sltu d rs1 rs2
  | .xor _ rs1 rs2 => .xor d rs1 rs2
  | .srl _ rs1 rs2 => .srl d rs1 rs2
  | .sra _ rs1 rs2 => .sra d rs1 rs2
  | .or _ rs1 rs2 => .or d rs1 rs2
  | .and _ rs1 rs2 => .and d rs1 rs2
  | .ecall => .ecall
  | .addiw _ rs1 imm => .addiw d rs1 imm
  | .mul _ rs1 rs2 => .mul d rs1 rs2
  | .mulh _ rs1 rs2 => .mulh d rs1 rs2
  | .div _ rs1 rs2 => .div d rs1 rs2
  | .rem _ rs1 rs2 => .rem d rs1 rs2

/-- The registers an instruction reads at decode (10_state.md R24; ECALL's two are those of 00_scope.md R8). -/
def sourcesOf : Instr → List RegIdx
  | .lui _ _ | .auipc _ _ => []
  | .jal _ _ => []
  | .jalr _ rs1 _ => [rs1]
  | .lb _ rs1 _ | .lh _ rs1 _ | .lw _ rs1 _ | .ld _ rs1 _ | .lbu _ rs1 _ | .lhu _ rs1 _ => [rs1]
  | .addi _ rs1 _ | .slti _ rs1 _ | .sltiu _ rs1 _ | .xori _ rs1 _ | .ori _ rs1 _ | .andi _ rs1 _ => [rs1]
  | .addiw _ rs1 _ => [rs1]
  | .slli _ rs1 _ | .srli _ rs1 _ | .srai _ rs1 _ => [rs1]
  | .add _ rs1 rs2 | .sub _ rs1 rs2 | .sll _ rs1 rs2 | .slt _ rs1 rs2 | .sltu _ rs1 rs2 | .xor _ rs1 rs2 => [rs1, rs2]
  | .srl _ rs1 rs2 | .sra _ rs1 rs2 | .or _ rs1 rs2 | .and _ rs1 rs2 | .mul _ rs1 rs2 | .mulh _ rs1 rs2 => [rs1, rs2]
  | .div _ rs1 rs2 | .rem _ rs1 rs2 => [rs1, rs2]
  | .beq rs1 rs2 _ | .bne rs1 rs2 _ | .blt rs1 rs2 _ | .bge rs1 rs2 _ | .bltu rs1 rs2 _ | .bgeu rs1 rs2 _ => [rs1, rs2]
  | .sb rs1 rs2 _ | .sh rs1 rs2 _ | .sw rs1 rs2 _ | .sd rs1 rs2 _ => [rs1, rs2]
  | .ecall => [Config.syscallArgReg, Config.syscallNumReg]

/-- The address and width of a store's access (R139, R148 to R151); none for every other variant (R46). -/
def storeTo (i : Instr) (s : State) : Option (Word × Width) :=
  match i with
  | .sb rs1 _ imm => some (s.readReg rs1 + imm.signExtend 64, .byte)
  | .sh rs1 _ imm => some (s.readReg rs1 + imm.signExtend 64, .half)
  | .sw rs1 _ imm => some (s.readReg rs1 + imm.signExtend 64, .word)
  | .sd rs1 _ imm => some (s.readReg rs1 + imm.signExtend 64, .double)
  | .lui _ _ | .auipc _ _ => none
  | .jal _ _ => none
  | .jalr _ _ _ => none
  | .beq _ _ _ | .bne _ _ _ | .blt _ _ _ | .bge _ _ _ | .bltu _ _ _ | .bgeu _ _ _ => none
  | .lb _ _ _ | .lh _ _ _ | .lw _ _ _ | .ld _ _ _ | .lbu _ _ _ | .lhu _ _ _ => none
  | .addi _ _ _ | .slti _ _ _ | .sltiu _ _ _ | .xori _ _ _ | .ori _ _ _ | .andi _ _ _ | .addiw _ _ _ => none
  | .slli _ _ _ | .srli _ _ _ | .srai _ _ _ => none
  | .add _ _ _ | .sub _ _ _ | .sll _ _ _ | .slt _ _ _ | .sltu _ _ _ | .xor _ _ _ | .srl _ _ _ | .sra _ _ _ => none
  | .or _ _ _ | .and _ _ _ | .mul _ _ _ | .mulh _ _ _ | .div _ _ _ | .rem _ _ _ => none
  | .ecall => none

/-- The variants that make a data access: the six loads and the four stores (R46). -/
def accessesMemory : Instr → Bool
  | .lb _ _ _ | .lh _ _ _ | .lw _ _ _ | .ld _ _ _ | .lbu _ _ _ | .lhu _ _ _ => true
  | .sb _ _ _ | .sh _ _ _ | .sw _ _ _ | .sd _ _ _ => true
  | .lui _ _ | .auipc _ _ => false
  | .jal _ _ => false
  | .jalr _ _ _ => false
  | .beq _ _ _ | .bne _ _ _ | .blt _ _ _ | .bge _ _ _ | .bltu _ _ _ | .bgeu _ _ _ => false
  | .addi _ _ _ | .slti _ _ _ | .sltiu _ _ _ | .xori _ _ _ | .ori _ _ _ | .andi _ _ _ | .addiw _ _ _ => false
  | .slli _ _ _ | .srli _ _ _ | .srai _ _ _ => false
  | .add _ _ _ | .sub _ _ _ | .sll _ _ _ | .slt _ _ _ | .sltu _ _ _ | .xor _ _ _ | .srl _ _ _ | .sra _ _ _ => false
  | .or _ _ _ | .and _ _ _ | .mul _ _ _ | .mulh _ _ _ | .div _ _ _ | .rem _ _ _ => false
  | .ecall => false

/-! ## What a fault says of where it was raised -/

/-- The address of the instruction a fault records (60_exceptions.md R161). -/
def faultAddress : FaultRecord → Word
  | .misalignedProgramCounter a => a
  | .unknownOpcode a _ _ => a
  | .unknownFunct a _ _ _ _ => a
  | .decoderConsistencyFault a _ _ _ => a
  | .memoryFault a _ _ _ => a
  | .unsupportedSyscall a _ => a

/-- The faults raised before Fetch advances the pc: the pc check, the fetch's own refusal, a 16-bit word (R90, R91). -/
def raisedByFetch : FaultRecord → Bool
  | .misalignedProgramCounter _ => true
  | .unknownOpcode _ w _ => !isFourByte w
  | .unknownFunct _ _ _ _ _ => false
  | .decoderConsistencyFault _ _ _ _ => false
  | .memoryFault _ kind _ _ => kind == .fetch
  | .unsupportedSyscall _ _ => false

/-! ## Frames -/

/-- `t` is `s` after an instruction whose one effect is to write `v` to `rd`, the pc being `pc'` afterwards: a write to
register 0 is discarded, every other register, every byte of memory, the status and the port's verdict stay. -/
structure WroteReg (s t : State) (rd : RegIdx) (v pc' : Word) : Prop where
  dest : t.readReg rd = if rd = 0#5 then 0#64 else v
  otherRegs : ∀ i, i ≠ rd → t.readReg i = s.readReg i
  pc : t.pc = pc'
  memory : ∀ addr, t.byteAt addr = s.byteAt addr
  status : t.status = s.status
  verdict : t.verdict = s.verdict

/-- `t` is `s` with the pc `pc'` and the run status `status`; every register and every byte of memory stays. -/
structure MovedTo (s t : State) (pc' : Word) (status : Status) : Prop where
  regs : ∀ i, t.readReg i = s.readReg i
  pc : t.pc = pc'
  memory : ∀ addr, t.byteAt addr = s.byteAt addr
  status : t.status = status
  verdict : t.verdict = s.verdict

/-- `t` is `s` after a store of the low `n` bytes of `v` at `ea`, addresses modulo 2^64, the pc being `pc'` afterwards:
every byte outside the `n` stored ones, every register, the status and the port's verdict stay. -/
structure StoredAt (s t : State) (ea : Word) (n : Nat) (v pc' : Word) : Prop where
  stored : ∀ i, i < n → t.byteAt (ea + BitVec.ofNat 64 i) = v.extractLsb' (8 * i) 8
  otherBytes : ∀ addr, (∀ i, i < n → addr ≠ ea + BitVec.ofNat 64 i) → t.byteAt addr = s.byteAt addr
  regs : ∀ i, t.readReg i = s.readReg i
  pc : t.pc = pc'
  status : t.status = s.status
  verdict : t.verdict = s.verdict

end Sys2Proof.Machine
end

