-- ==== Sys2Proof/Certificates/Slice0/Obligations.lean ====
section
/-! DEFINITION. The statements for the provers. The Row predicates say, for one variant, how its words are laid out
(every register and every immediate the encoding admits), that `exec` answers a next state from EVERY state that meets
the hypotheses written there, what it writes, and its frame (Safety.lean). The word layouts and the funct values are the
spec's decisions D1 and D2 (log 6). -/

namespace Sys2Proof.Statements
open Sys2Proof Sys2Proof.Machine

/-- A register-register variant (R62, R74, R100): word `funct7 ∥ rs2 ∥ rs1 ∥ funct3 ∥ rd ∥ 0110011`; it completes from
every state and writes `result x[rs1] x[rs2]`. -/
def OpRow (funct7 : BitVec 7) (funct3 : BitVec 3) (instr : RegIdx → RegIdx → RegIdx → Instr)
    (result : Word → Word → Word) : Prop :=
  ∀ rd rs1 rs2 : RegIdx,
    decode (funct7 ++ rs2 ++ rs1 ++ funct3 ++ rd ++ 0b0110011#7) = .ok (instr rd rs1 rs2) ∧
    ∀ s : State, ∃ t, exec (instr rd rs1 rs2) s = .next t ∧
      WroteReg s t rd (result (s.readReg rs1) (s.readReg rs2)) (s.pc + 4#64)

/-- A register-immediate variant (R63, R75, R76, R100): word `imm ∥ rs1 ∥ funct3 ∥ rd ∥ opcode`; it completes from every
state and writes `result x[rs1] (sext_64 imm)`. -/
def OpImmRow (opcode : BitVec 7) (funct3 : BitVec 3) (instr : RegIdx → RegIdx → BitVec 12 → Instr)
    (result : Word → Word → Word) : Prop :=
  ∀ (rd rs1 : RegIdx) (imm : BitVec 12),
    decode (imm ++ rs1 ++ funct3 ++ rd ++ opcode) = .ok (instr rd rs1 imm) ∧
    ∀ s : State, ∃ t, exec (instr rd rs1 imm) s = .next t ∧
      WroteReg s t rd (result (s.readReg rs1) (imm.signExtend 64)) (s.pc + 4#64)

/-- An immediate shift (R63, R71, R75, R100): word `funct6 ∥ shamt ∥ rs1 ∥ funct3 ∥ rd ∥ 0010011`; it completes from
every state and writes `result x[rs1] shamt`, the amount being 0 to 63. -/
def ShiftRow (funct6 : BitVec 6) (funct3 : BitVec 3) (instr : RegIdx → RegIdx → BitVec 6 → Instr)
    (result : Word → Nat → Word) : Prop :=
  ∀ (rd rs1 : RegIdx) (shamt : BitVec 6),
    decode (funct6 ++ shamt ++ rs1 ++ funct3 ++ rd ++ 0b0010011#7) = .ok (instr rd rs1 shamt) ∧
    ∀ s : State, ∃ t, exec (instr rd rs1 shamt) s = .next t ∧
      WroteReg s t rd (result (s.readReg rs1) shamt.toNat) (s.pc + 4#64)

/-- An upper-immediate variant (R65, R69): word `imm20 ∥ rd ∥ opcode`; it completes from every state and writes
`result pc (sext_64(imm20 ∥ 0^12))`. -/
def UpperRow (opcode : BitVec 7) (instr : RegIdx → BitVec 20 → Instr) (result : Word → Word → Word) : Prop :=
  ∀ (rd : RegIdx) (imm20 : BitVec 20),
    decode (imm20 ++ rd ++ opcode) = .ok (instr rd imm20) ∧
    ∀ s : State, ∃ t, exec (instr rd imm20) s = .next t ∧
      WroteReg s t rd (result s.pc ((imm20 ++ 0#12).signExtend 64)) (s.pc + 4#64)

/-- A conditional branch (R64, R68, R132): the word of every even offset; it completes from every state, writes nothing,
and the pc is `a + offset` when the relation holds and `a + 4` otherwise. -/
def BranchRow (funct3 : BitVec 3) (instr : RegIdx → RegIdx → BitVec 13 → Instr) (cond : Word → Word → Bool) : Prop :=
  ∀ (rs1 rs2 : RegIdx) (offset : BitVec 13),
    (offset.getLsbD 0 = false →
      decode (offset.extractLsb' 12 1 ++ offset.extractLsb' 5 6 ++ rs2 ++ rs1 ++ funct3 ++ offset.extractLsb' 1 4 ++
        offset.extractLsb' 11 1 ++ 0b1100011#7) = .ok (instr rs1 rs2 offset)) ∧
    ∀ s : State, ∃ t, exec (instr rs1 rs2 offset) s = .next t ∧
      MovedTo s t (if cond (s.readReg rs1) (s.readReg rs2) then s.pc + offset.signExtend 64 else s.pc + 4#64) s.status

/-- A load (R63, R77, R139, R140): with `ea = x[rs1] + sext_64 imm`, when the port admits the access it completes and
writes `value s ea`; when the port refuses it the run ends in MemoryFault with nothing written. -/
def LoadRow (funct3 : BitVec 3) (width : Width) (instr : RegIdx → RegIdx → BitVec 12 → Instr)
    (value : State → Word → Word) : Prop :=
  ∀ (rd rs1 : RegIdx) (imm : BitVec 12),
    decode (imm ++ rs1 ++ funct3 ++ rd ++ 0b0000011#7) = .ok (instr rd rs1 imm) ∧
    ∀ s : State,
      (memAdmit s.verdict .load (s.readReg rs1 + imm.signExtend 64) width = true →
        ∃ t, exec (instr rd rs1 imm) s = .next t ∧
          WroteReg s t rd (value s (s.readReg rs1 + imm.signExtend 64)) (s.pc + 4#64)) ∧
      (memAdmit s.verdict .load (s.readReg rs1 + imm.signExtend 64) width = false →
        ∃ t, exec (instr rd rs1 imm) s = .next t ∧
          MovedTo s t (s.pc + 4#64)
            (.faulted (.memoryFault s.pc .load (s.readReg rs1 + imm.signExtend 64) width)))

/-- A store (R64, R77, R139, R147): with `ea = x[rs1] + sext_64 imm` and the byte store in canonical form, when the port
admits the access it completes and the low bytes of x[rs2] stand at `ea`, every other byte as before; when the port
refuses it the run ends in MemoryFault with no byte written. -/
def StoreRow (funct3 : BitVec 3) (width : Width) (instr : RegIdx → RegIdx → BitVec 12 → Instr) : Prop :=
  ∀ (rs1 rs2 : RegIdx) (imm : BitVec 12),
    decode (imm.extractLsb' 5 7 ++ rs2 ++ rs1 ++ funct3 ++ imm.extractLsb' 0 5 ++ 0b0100011#7) =
      .ok (instr rs1 rs2 imm) ∧
    ∀ s : State,
      (s.mem.wf → memAdmit s.verdict .store (s.readReg rs1 + imm.signExtend 64) width = true →
        ∃ t, exec (instr rs1 rs2 imm) s = .next t ∧
          StoredAt s t (s.readReg rs1 + imm.signExtend 64) width.bytes (s.readReg rs2) (s.pc + 4#64)) ∧
      (memAdmit s.verdict .store (s.readReg rs1 + imm.signExtend 64) width = false →
        ∃ t, exec (instr rs1 rs2 imm) s = .next t ∧
          MovedTo s t (s.pc + 4#64)
            (.faulted (.memoryFault s.pc .store (s.readReg rs1 + imm.signExtend 64) width)))

end Sys2Proof.Statements

open Sys2Proof Sys2Proof.Machine Sys2Proof.Statements

/-! ## Encoding -/

/-- Words of every family, from the spec's own examples, decode to the instruction they stand for (95_test_vectors.md). -/
def Obligations.WordsOfEveryFamilyDecode : Prop :=
  decode 0x00000013#32 = .ok (.addi 0#5 0#5 0#12) ∧
  decode 0x00100093#32 = .ok (.addi 1#5 0#5 1#12) ∧
  decode 0x0010819B#32 = .ok (.addiw 3#5 1#5 1#12) ∧
  decode 0x4020D193#32 = .ok (.srai 3#5 1#5 2#6) ∧
  decode 0x0220C1B3#32 = .ok (.div 3#5 1#5 2#5) ∧
  decode 0x123451B7#32 = .ok (.lui 3#5 0x12345#20) ∧
  decode 0x00001197#32 = .ok (.auipc 3#5 1#20) ∧
  decode 0xFFDFF0EF#32 = .ok (.jal 1#5 (-4#21)) ∧
  decode 0xFFF082E7#32 = .ok (.jalr 5#5 1#5 (-1#12)) ∧
  decode 0xFE108EE3#32 = .ok (.beq 1#5 1#5 (-4#13)) ∧
  decode 0x0040A183#32 = .ok (.lw 3#5 1#5 4#12) ∧
  decode 0xFE20AE23#32 = .ok (.sw 1#5 2#5 (-4#12)) ∧
  decode 0x00000073#32 = .ok .ecall

/-- Decoding what the encoder writes gives the instruction back, for every instruction with an encoding (R72, R86). -/
def Obligations.DecodeOfEncode : Prop := ∀ i : Instr, i.wellFormed = true → decode (encode i) = .ok i

/-- Every word that decodes is the encoding of what it decodes to, which has an encoding: each instruction has one word
and no bit of a word is dropped (R86, R87). -/
def Obligations.EncodeOfDecode : Prop :=
  ∀ (w : InstrWord) (i : Instr), decode w = .ok i → i.wellFormed = true ∧ encode i = w

/-- The decoder, written from the dispatch tables of R73 to R80, and the opcode table's match and mask columns accept the
same words for the same variant. -/
def Obligations.DecoderAgreesWithOpcodeTable : Prop :=
  ∀ (w : InstrWord) (v : Variant), (∃ i, decode w = .ok i ∧ i.variant = v) ↔ w &&& v.maskBits = v.matchBits

/-- Every word is exactly one of R86's four cases, each told from the word's bits and the opcode table alone. -/
def Obligations.EveryWordHasOneReading : Prop :=
  ∀ w : InstrWord,
    (decode w = .error .compressed ↔ w.extractLsb' 0 2 ≠ 0b11#2) ∧
    (decode w = .error .unknownOpcode ↔
      w.extractLsb' 0 2 = 0b11#2 ∧ ∀ f : Family, w.extractLsb' 0 7 ≠ f.opcode) ∧
    (decode w = .error .unknownFunct ↔
      (∃ f : Family, w.extractLsb' 0 7 = f.opcode) ∧ ∀ v : Variant, w &&& v.maskBits ≠ v.matchBits) ∧
    ((∃ i, decode w = .ok i) ↔ ∃ v : Variant, w &&& v.maskBits = v.matchBits) ∧
    (∀ v v' : Variant, w &&& v.maskBits = v.matchBits → w &&& v'.maskBits = v'.matchBits → v = v') ∧
    ∀ (v : Variant) (m : String), decode w ≠ .error (.inconsistent v m)

/-- The five immediates and the shift amount of a word: assembled as R66 to R71 say, and in the ranges and multiples they
give. -/
def Obligations.ImmediatesHaveTheirRanges : Prop :=
  ∀ w : InstrWord,
    (immI w = (w.extractLsb' 20 12).signExtend 64 ∧ -2048 ≤ (immI w).toInt ∧ (immI w).toInt ≤ 2047) ∧
    (immS w = (w.extractLsb' 25 7 ++ w.extractLsb' 7 5).signExtend 64 ∧
      -2048 ≤ (immS w).toInt ∧ (immS w).toInt ≤ 2047) ∧
    (immB w = (w.extractLsb' 31 1 ++ w.extractLsb' 7 1 ++ w.extractLsb' 25 6 ++ w.extractLsb' 8 4 ++ 0#1).signExtend 64 ∧
      (immB w).toInt % 2 = 0 ∧ -4096 ≤ (immB w).toInt ∧ (immB w).toInt ≤ 4094) ∧
    (immU w = (w.extractLsb' 12 20 ++ 0#12).signExtend 64 ∧
      (immU w).toInt % 4096 = 0 ∧ -2 ^ 31 ≤ (immU w).toInt ∧ (immU w).toInt ≤ 2 ^ 31 - 4096) ∧
    (immJ w = (w.extractLsb' 31 1 ++ w.extractLsb' 12 8 ++ w.extractLsb' 20 1 ++ w.extractLsb' 21 10 ++ 0#1).signExtend 64 ∧
      (immJ w).toInt % 2 = 0 ∧ -2 ^ 20 ≤ (immJ w).toInt ∧ (immJ w).toInt ≤ 2 ^ 20 - 2) ∧
    (shamtI w = immI w &&& 0x3F#64 ∧ shamtI w = (w.extractLsb' 20 6).setWidth 64 ∧ (shamtI w).toNat ≤ 63)

/-! ## Results, completion and frames of the instructions -/

/-- ADD, SUB, XOR, OR, AND (R101, R102, R115, R117, R119). -/
def Obligations.AddSubtractAndLogicResults : Prop :=
  OpRow 0b0000000#7 0b000#3 .add (fun x y => x + y) ∧
  OpRow 0b0100000#7 0b000#3 .sub (fun x y => x - y) ∧
  OpRow 0b0000000#7 0b100#3 .xor (fun x y => x ^^^ y) ∧
  OpRow 0b0000000#7 0b110#3 .or (fun x y => x ||| y) ∧
  OpRow 0b0000000#7 0b111#3 .and (fun x y => x &&& y)

/-- ADDI, XORI, ORI, ANDI (R103, R116, R118, R120). -/
def Obligations.ImmediateAddAndLogicResults : Prop :=
  OpImmRow 0b0010011#7 0b000#3 .addi (fun x y => x + y) ∧
  OpImmRow 0b0010011#7 0b100#3 .xori (fun x y => x ^^^ y) ∧
  OpImmRow 0b0010011#7 0b110#3 .ori (fun x y => x ||| y) ∧
  OpImmRow 0b0010011#7 0b111#3 .andi (fun x y => x &&& y)

/-- ADDIW: the low 32 bits of the sum, sign-extended (R104). -/
def Obligations.AddWordImmediateResult : Prop :=
  OpImmRow 0b0011011#7 0b000#3 .addiw (fun x y => (BitVec.setWidth 32 (x + y)).signExtend 64)

/-- SLL, SRL, SRA, SLLI, SRLI, SRAI: the amount is the low 6 bits of op2, 0 to 63; an immediate shift with any other
funct6 is UnknownFunct (R105 to R110). -/
def Obligations.ShiftResults : Prop :=
  OpRow 0b0000000#7 0b001#3 .sll (fun x y => x <<< (y.toNat % 64)) ∧
  OpRow 0b0000000#7 0b101#3 .srl (fun x y => x >>> (y.toNat % 64)) ∧
  OpRow 0b0100000#7 0b101#3 .sra (fun x y => x.sshiftRight (y.toNat % 64)) ∧
  ShiftRow 0b000000#6 0b001#3 .slli (fun x n => x <<< n) ∧
  ShiftRow 0b000000#6 0b101#3 .srli (fun x n => x >>> n) ∧
  ShiftRow 0b010000#6 0b101#3 .srai (fun x n => x.sshiftRight n) ∧
  ∀ (funct6 shamt : BitVec 6) (rs1 rd : RegIdx), funct6 ≠ 0b000000#6 →
    decode (funct6 ++ shamt ++ rs1 ++ 0b001#3 ++ rd ++ 0b0010011#7) = .error .unknownFunct ∧
    (funct6 ≠ 0b010000#6 →
      decode (funct6 ++ shamt ++ rs1 ++ 0b101#3 ++ rd ++ 0b0010011#7) = .error .unknownFunct)

/-- SLT, SLTI, SLTU, SLTIU: 1 or 0 by the signed or the unsigned readings; SLTIU's immediate is sign-extended first
(R111 to R114). -/
def Obligations.SetLessThanResults : Prop :=
  OpRow 0b0000000#7 0b010#3 .slt (fun x y => if x.toInt < y.toInt then 1#64 else 0#64) ∧
  OpImmRow 0b0010011#7 0b010#3 .slti (fun x y => if x.toInt < y.toInt then 1#64 else 0#64) ∧
  OpRow 0b0000000#7 0b011#3 .sltu (fun x y => if x.toNat < y.toNat then 1#64 else 0#64) ∧
  OpImmRow 0b0010011#7 0b011#3 .sltiu (fun x y => if x.toNat < y.toNat then 1#64 else 0#64)

/-- MUL and MULH: the low and the high 64 bits of the exact signed product; MUL's are also those of the unsigned product
(R122, R123). -/
def Obligations.MultiplyResults : Prop :=
  OpRow 0b0000001#7 0b000#3 .mul (fun x y => BitVec.ofInt 64 (x.toInt * y.toInt)) ∧
  OpRow 0b0000001#7 0b000#3 .mul (fun x y => BitVec.ofNat 64 (x.toNat * y.toNat)) ∧
  OpRow 0b0000001#7 0b001#3 .mulh (fun x y => BitVec.ofInt 64 (x.toInt * y.toInt / 2 ^ 64))

/-- DIV and REM with their division-by-zero and overflow cases (R124, R125); truncation and REM's overflow value are the
spec's decision D15 (log 9). -/
def Obligations.DivideAndRemainderResults : Prop :=
  OpRow 0b0000001#7 0b100#3 .div (fun x y =>
    if y = 0#64 then 0xFFFFFFFFFFFFFFFF#64
    else if x = 0x8000000000000000#64 ∧ y = 0xFFFFFFFFFFFFFFFF#64 then 0x8000000000000000#64
    else BitVec.ofInt 64 (x.toInt.tdiv y.toInt)) ∧
  OpRow 0b0000001#7 0b110#3 .rem (fun x y =>
    if y = 0#64 then x
    else if x = 0x8000000000000000#64 ∧ y = 0xFFFFFFFFFFFFFFFF#64 then 0#64
    else BitVec.ofInt 64 (x.toInt.tmod y.toInt))

/-- For every divisor but 0 and every pair but (most-negative, -1) the quotient DIV writes and the remainder REM writes
satisfy dividend = divisor × quotient + remainder exactly, the remainder is smaller than the divisor in magnitude, and a
non-zero remainder has the dividend's sign (R126; rests on D15, log 9). -/
def Obligations.DivisionIdentity : Prop :=
  ∀ (s t u : State) (rd rs1 rs2 : RegIdx), rd ≠ 0#5 → s.readReg rs2 ≠ 0#64 →
    ¬(s.readReg rs1 = 0x8000000000000000#64 ∧ s.readReg rs2 = 0xFFFFFFFFFFFFFFFF#64) →
    exec (.div rd rs1 rs2) s = .next t → exec (.rem rd rs1 rs2) s = .next u →
    (s.readReg rs1).toInt = (s.readReg rs2).toInt * (t.readReg rd).toInt + (u.readReg rd).toInt ∧
    |(u.readReg rd).toInt| < |(s.readReg rs2).toInt| ∧
    ((u.readReg rd).toInt ≠ 0 → ((u.readReg rd).toInt < 0 ↔ (s.readReg rs1).toInt < 0))

/-- LUI and AUIPC: the placed immediate, and the instruction's own address plus it (R128, R129). -/
def Obligations.UpperImmediateResults : Prop :=
  UpperRow 0b0110111#7 .lui (fun _ imm => imm) ∧
  UpperRow 0b0010111#7 .auipc (fun a imm => a + imm)

/-- JAL: the link is `a + 4`, the target `a + offset` (R130). JALR: the link is `a + 4`, the target the sum with bit 0
cleared, from the old x[rs1] even when rd = rs1, and another funct3 is UnknownFunct (R131). Both complete from every
state. -/
def Obligations.JumpResults : Prop :=
  (∀ (rd : RegIdx) (offset : BitVec 21),
    (offset.getLsbD 0 = false →
      decode (offset.extractLsb' 20 1 ++ offset.extractLsb' 1 10 ++ offset.extractLsb' 11 1 ++ offset.extractLsb' 12 8 ++
        rd ++ 0b1101111#7) = .ok (.jal rd offset)) ∧
    ∀ s : State, ∃ t, exec (.jal rd offset) s = .next t ∧
      WroteReg s t rd (s.pc + 4#64) (s.pc + offset.signExtend 64)) ∧
  (∀ (rd rs1 : RegIdx) (imm : BitVec 12),
    decode (imm ++ rs1 ++ 0b000#3 ++ rd ++ 0b1100111#7) = .ok (.jalr rd rs1 imm) ∧
    (∀ s : State, ∃ t, exec (.jalr rd rs1 imm) s = .next t ∧
      WroteReg s t rd (s.pc + 4#64) ((s.readReg rs1 + imm.signExtend 64) &&& ~~~1#64)) ∧
    ∀ funct3 : BitVec 3, funct3 ≠ 0b000#3 →
      decode (imm ++ rs1 ++ funct3 ++ rd ++ 0b1100111#7) = .error .unknownFunct)

/-- BEQ, BNE, BLT, BGE, BLTU, BGEU (R132 to R138). -/
def Obligations.BranchResults : Prop :=
  BranchRow 0b000#3 .beq (fun x y => decide (x = y)) ∧
  BranchRow 0b001#3 .bne (fun x y => decide (x ≠ y)) ∧
  BranchRow 0b100#3 .blt (fun x y => decide (x.toInt < y.toInt)) ∧
  BranchRow 0b101#3 .bge (fun x y => decide (y.toInt ≤ x.toInt)) ∧
  BranchRow 0b110#3 .bltu (fun x y => decide (x.toNat < y.toNat)) ∧
  BranchRow 0b111#3 .bgeu (fun x y => decide (y.toNat ≤ x.toNat))

/-- LB, LH, LW, LD, LBU, LHU: the bytes at ea, lowest address lowest, sign- or zero-extended; a refused access faults;
there is no LWU (R141 to R146; byte order D3, log 7). -/
def Obligations.LoadResults : Prop :=
  LoadRow 0b000#3 .byte .lb (fun s ea => (s.byteAt ea).signExtend 64) ∧
  LoadRow 0b001#3 .half .lh (fun s ea => (s.byteAt (ea + 1#64) ++ s.byteAt ea).signExtend 64) ∧
  LoadRow 0b010#3 .word .lw (fun s ea => (s.byteAt (ea + 3#64) ++ s.byteAt (ea + 2#64) ++ s.byteAt (ea + 1#64) ++
    s.byteAt ea).signExtend 64) ∧
  LoadRow 0b011#3 .double .ld (fun s ea => s.byteAt (ea + 7#64) ++ s.byteAt (ea + 6#64) ++ s.byteAt (ea + 5#64) ++
    s.byteAt (ea + 4#64) ++ s.byteAt (ea + 3#64) ++ s.byteAt (ea + 2#64) ++ s.byteAt (ea + 1#64) ++ s.byteAt ea) ∧
  LoadRow 0b100#3 .byte .lbu (fun s ea => (s.byteAt ea).setWidth 64) ∧
  LoadRow 0b101#3 .half .lhu (fun s ea => (s.byteAt (ea + 1#64) ++ s.byteAt ea).setWidth 64) ∧
  ∀ (rd rs1 : RegIdx) (imm : BitVec 12),
    decode (imm ++ rs1 ++ 0b110#3 ++ rd ++ 0b0000011#7) = .error .unknownFunct ∧
    decode (imm ++ rs1 ++ 0b111#3 ++ rd ++ 0b0000011#7) = .error .unknownFunct

/-- SB, SH, SW, SD: the low 1, 2, 4, 8 bytes of x[rs2] at ea, lowest byte first, every other byte of memory as before; a
refused access faults and writes no byte (R148 to R151; byte order D3, log 7). -/
def Obligations.StoreResults : Prop :=
  StoreRow 0b000#3 .byte .sb ∧
  StoreRow 0b001#3 .half .sh ∧
  StoreRow 0b010#3 .word .sw ∧
  StoreRow 0b011#3 .double .sd

/-- ECALL: with x17 = 93 the run ends with exit code x10, with any other x17 in UnsupportedSyscall; no register and no
byte is written and the pc is `a + 4` (R152 to R154; the register numbers and 93 are the spec's decisions D10, D11,
log 8; the only exit is D22, log 17). -/
def Obligations.SystemCallResults : Prop :=
  decode 0x00000073#32 = .ok .ecall ∧
  ∀ s : State,
    (s.readReg 17#5 = 93#64 → ∃ t, exec .ecall s = .next t ∧ MovedTo s t (s.pc + 4#64) (.exited (s.readReg 10#5))) ∧
    (s.readReg 17#5 ≠ 93#64 → ∃ t, exec .ecall s = .next t ∧
      MovedTo s t (s.pc + 4#64) (.faulted (.unsupportedSyscall s.pc (s.readReg 17#5))))

/-! ## The step -/

/-- When the machine is Running, the pc even, the fetch admitted and the four bytes at the pc decode, a step is `exec` of
the decoded instruction at that very state: the pc's advance past the word is exec's own (log 12). -/
def Obligations.StepRunsDecodedInstruction : Prop :=
  ∀ (s : State) (i : Instr), s.status = .running → s.pc.getLsbD 0 = false → memAdmit s.verdict .fetch s.pc .word = true →
    decode (s.byteAt (s.pc + 3#64) ++ s.byteAt (s.pc + 2#64) ++ s.byteAt (s.pc + 1#64) ++ s.byteAt s.pc) = .ok i →
    step s = exec i s

/-- No step is taken outside Running (R34, R90): that `step` answers the stop `notRunning` there is the model's choice
(log 1). From an odd pc a step raises MisalignedProgramCounter, whatever the port would accept and whatever stands in
memory; pc, registers and memory are unchanged (R90; the fault as a next state is log 1). -/
def Obligations.OddPcFaultsBeforeFetch : Prop :=
  ∀ s : State,
    (s.status ≠ .running → step s = .fault .notRunning) ∧
    (s.status = .running → s.pc.getLsbD 0 = true →
      ∃ t, step s = .next t ∧ MovedTo s t s.pc (.faulted (.misalignedProgramCounter s.pc)))

/-- A refused fetch raises MemoryFault(a, 4, fetch) with the pc unchanged (R41, R91; D6). -/
def Obligations.RefusedFetchFaults : Prop :=
  ∀ s : State, s.status = .running → s.pc.getLsbD 0 = false → memAdmit s.verdict .fetch s.pc .word = false →
    ∃ t, step s = .next t ∧ MovedTo s t s.pc (.faulted (.memoryFault s.pc .fetch s.pc .word))

/-- A fetched word that is no instruction ends the run: a 16-bit word with the pc unchanged, an unknown opcode and an
unknown funct with the pc at `a + 4`, each with the info of R161 (R60, R83, R84, R91, R92; D7, D8, logs 10, 11). -/
def Obligations.UndecodableWordFaults : Prop :=
  ∀ s : State, s.status = .running → s.pc.getLsbD 0 = false → memAdmit s.verdict .fetch s.pc .word = true →
    (decode (wordAt s s.pc) = .error .compressed → ∃ t, step s = .next t ∧
      MovedTo s t s.pc (.faulted (.unknownOpcode s.pc (wordAt s s.pc) ((wordAt s s.pc).extractLsb' 0 7)))) ∧
    (decode (wordAt s s.pc) = .error .unknownOpcode → ∃ t, step s = .next t ∧
      MovedTo s t (s.pc + 4#64)
        (.faulted (.unknownOpcode s.pc (wordAt s s.pc) ((wordAt s s.pc).extractLsb' 0 7)))) ∧
    (decode (wordAt s s.pc) = .error .unknownFunct → ∃ t, step s = .next t ∧
      MovedTo s t (s.pc + 4#64)
        (.faulted (.unknownFunct s.pc (wordAt s s.pc) ((wordAt s s.pc).extractLsb' 0 7)
          ((wordAt s s.pc).extractLsb' 12 3) ((wordAt s s.pc).extractLsb' 25 7))))

/-- No step ever ends in DecoderConsistencyFault (R85; D25). -/
def Obligations.DecoderConsistencyFaultNeverRaised : Prop :=
  ∀ (s t : State) (a : Word) (w : InstrWord) (v : Variant) (m : String), step s = .next t →
    t.status ≠ .faulted (.decoderConsistencyFault a w v m)

/-- Every fault is precise (R162; D8, log 11): a step that ends in a fault leaves every register and every byte as it
was, records the instruction's address, and leaves the pc at `a` for the faults of the fetch stage and at `a + 4` for
the later ones. -/
def Obligations.FaultsArePrecise : Prop :=
  ∀ (s t : State) (f : FaultRecord), step s = .next t → t.status = .faulted f →
    faultAddress f = s.pc ∧ MovedTo s t (if raisedByFetch f then s.pc else s.pc + 4#64) (.faulted f)

/-- A run ends only by a fault or by the exit system call: a step from Running leaves Running, Faulted, or, when the
decoded instruction is ECALL with x17 = 93, Exited with x10 (R99, R153, R171). -/
def Obligations.OnlyEcallExits : Prop :=
  ∀ s t : State, step s = .next t → s.status = .running ∧
    (t.status = .running ∨ (∃ f, t.status = .faulted f) ∨
      (decode (wordAt s s.pc) = .ok .ecall ∧ s.readReg 17#5 = 93#64 ∧ t.status = .exited (s.readReg 10#5)))

/-! ## Invariants of every step -/

/-- What reset leaves: pc 0, every register 0, Running (R37, R190). What memory holds and which accesses the port admits
are OPEN there and not stated (logs 3, 4). -/
def Obligations.ResetValues : Prop :=
  State.reset.pc = 0#64 ∧ (∀ i : RegIdx, State.reset.readReg i = 0#64) ∧ State.reset.status = .running

/-- The invariant holds at reset. -/
def Obligations.InvariantAtReset : Prop := Inv State.reset

/-- Every step keeps the invariant: the hard-wired register's slot stays 0, the byte store stays in canonical form, and
the pc stays even (R22, R23, R127). -/
def Obligations.StepKeepsInvariant : Prop := ∀ s t : State, Inv s → step s = .next t → Inv t

/-- From a state with an even pc that meets the invariant, a run of any length never ends in MisalignedProgramCounter: no
JAL, JALR or branch can produce an odd target (R127). -/
def Obligations.NoRunReachesAnOddPc : Prop :=
  ∀ (s : State) (fuel : Nat) (a : Word), Inv s → s.status = .running →
    (hostRun fuel s).pc.getLsbD 0 = false ∧ (hostRun fuel s).status ≠ .faulted (.misalignedProgramCounter a)

/-- The port's verdict is never changed by a step or a run: MemAdmit depends on its three arguments only, never on the
data or the history (R40; the table that holds it is the model's, log 2). -/
def Obligations.VerdictNeverChanges : Prop :=
  (∀ s t : State, step s = .next t → t.verdict = s.verdict) ∧ ∀ (s : State) (fuel : Nat), (hostRun fuel s).verdict = s.verdict

/-! ## What an instruction cannot change and cannot learn -/

/-- R22: register 0 reads 0 in every state, after every instruction and after every step, whatever was written to it. -/
def Obligations.RegisterZeroReadsZero : Prop :=
  (∀ s : State, s.readReg 0#5 = 0#64) ∧
  (∀ (s : State) (v : Word), (s.writeReg 0#5 v).readReg 0#5 = 0#64) ∧
  (∀ (i : Instr) (s t : State), exec i s = .next t → t.readReg 0#5 = 0#64) ∧
  ∀ s t : State, step s = .next t → t.readReg 0#5 = 0#64

/-- R23: an instruction whose destination is register 0 changes no register, and its other effects (pc, memory, faults)
are those of the same instruction with any other destination. -/
def Obligations.WriteToRegisterZeroIsDiscarded : Prop :=
  ∀ (i : Instr) (d : RegIdx) (s : State), destOf i = some 0#5 →
    ∃ t u, exec i s = .next t ∧ exec (withDest i d) s = .next u ∧ (∀ j, t.readReg j = s.readReg j) ∧
      t.pc = u.pc ∧ t.status = u.status ∧ ∀ addr, t.byteAt addr = u.byteAt addr

/-- An instruction changes no register but its destination; branches, stores and ECALL change none (R24, R96). -/
def Obligations.OnlyTheDestinationRegisterChanges : Prop :=
  ∀ (i : Instr) (s t : State) (j : RegIdx), exec i s = .next t → destOf i ≠ some j → t.readReg j = s.readReg j

/-- A byte of memory that a step changes lies in the access of the store the step ran (R43, R46, R147). -/
def Obligations.OnlyStoresChangeMemory : Prop :=
  ∀ (s t : State) (addr : Word), step s = .next t → t.byteAt addr ≠ s.byteAt addr →
    ∃ i ea n, decode (wordAt s s.pc) = .ok i ∧ storeTo i s = some (ea, n) ∧
      memAdmit s.verdict .store ea n = true ∧ ∃ k, k < n.bytes ∧ addr = ea + BitVec.ofNat 64 k

/-- An instruction that is no load and no store neither reads nor writes memory and never asks the port: with any other
memory and any other verdict it does the same to the rest of the state (R46). -/
def Obligations.NonMemoryInstructionsIgnoreMemory : Prop :=
  ∀ (i : Instr) (s : State) (m : Memory) (verdict : List AdmitRow), accessesMemory i = false →
    ∃ t, exec i s = .next t ∧ t.mem = s.mem ∧ t.verdict = s.verdict ∧
      exec i { s with mem := m, verdict := verdict } = .next { t with mem := m, verdict := verdict }

/-- An instruction reads no register it does not name: two Running states that agree on the pc, the memory port and the
registers the instruction reads give the same pc, status and memory and, where the instruction does not fault, the same
destination value (R24; ECALL's two registers are D10, log 8). -/
def Obligations.NoUnnamedRegisterIsRead : Prop :=
  ∀ (i : Instr) (s s' : State), s.status = .running → s'.status = .running → s'.pc = s.pc → s'.mem = s.mem →
    s'.verdict = s.verdict → (∀ j ∈ sourcesOf i, s'.readReg j = s.readReg j) →
    ∃ t t', exec i s = .next t ∧ exec i s' = .next t' ∧ t'.pc = t.pc ∧ t'.status = t.status ∧ t'.mem = t.mem ∧
      (t.status = .running → ∀ d, destOf i = some d → t'.readReg d = t.readReg d)

/-! ## The memory port -/

/-- SD followed by LD at the same address returns every 64-bit value unchanged (R151, R144). -/
def Obligations.StoreDoubleThenLoadDouble : Prop :=
  ∀ (s : State) (rd rs1 rs2 : RegIdx) (imm : BitVec 12), s.mem.wf → rd ≠ 0#5 →
    memAdmit s.verdict .store (s.readReg rs1 + imm.signExtend 64) .double = true →
    memAdmit s.verdict .load (s.readReg rs1 + imm.signExtend 64) .double = true →
    ∃ t u, exec (.sd rs1 rs2 imm) s = .next t ∧ exec (.ld rd rs1 imm) t = .next u ∧ u.readReg rd = s.readReg rs2

/-- SW followed by LW at the same address returns the value unchanged exactly when bits 63:31 of the stored register were
all equal (R150; 90_conflicts.md C7). -/
def Obligations.StoreWordThenLoadWord : Prop :=
  ∀ (s : State) (rd rs1 rs2 : RegIdx) (imm : BitVec 12), s.mem.wf → rd ≠ 0#5 →
    memAdmit s.verdict .store (s.readReg rs1 + imm.signExtend 64) .word = true →
    memAdmit s.verdict .load (s.readReg rs1 + imm.signExtend 64) .word = true →
    ∃ t u, exec (.sw rs1 rs2 imm) s = .next t ∧ exec (.lw rd rs1 imm) t = .next u ∧
      (u.readReg rd = s.readReg rs2 ↔
        (s.readReg rs2).extractLsb' 31 33 = 0#33 ∨ (s.readReg rs2).extractLsb' 31 33 = 0x1FFFFFFFF#33)

/-- A narrower load inside a stored doubleword sees that part of its bytes, little-endian: n bytes at ea + k are the bits
8(k+n)-1 down to 8k of the stored value (R43, R44; byte order D3, log 7). -/
def Obligations.NarrowReadsInsideStoredDouble : Prop :=
  ∀ (s t : State) (rs1 rs2 : RegIdx) (imm : BitVec 12) (a : Word) (k : Nat) (n : Width), s.mem.wf →
    memAdmit s.verdict .store (s.readReg rs1 + imm.signExtend 64) .double = true →
    memAdmit s.verdict .load (s.readReg rs1 + imm.signExtend 64 + BitVec.ofNat 64 k) n = true →
    k + n.bytes ≤ 8 → exec (.sd rs1 rs2 imm) s = .next t →
    memRead t a (s.readReg rs1 + imm.signExtend 64 + BitVec.ofNat 64 k) n =
      .ok ((s.readReg rs2).extractLsb' (8 * k) (8 * n.bytes))

/-- A store is seen by the very next fetch: if SW stores at the address of the following instruction, the next step runs
the instruction stored (R54, R193; D18). -/
def Obligations.NextFetchSeesTheStore : Prop :=
  ∀ (s t : State) (rs1 rs2 : RegIdx) (imm : BitVec 12) (i : Instr), s.mem.wf → s.status = .running →
    s.pc.getLsbD 0 = false → s.readReg rs1 + imm.signExtend 64 = s.pc + 4#64 →
    memAdmit s.verdict .store (s.pc + 4#64) .word = true → memAdmit s.verdict .fetch (s.pc + 4#64) .word = true →
    decode ((s.readReg rs2).extractLsb' 0 32) = .ok i →
    exec (.sw rs1 rs2 imm) s = .next t → step t = exec i t

/-- Equal memories are equal data: two byte stores in canonical form that read alike at every 64-bit address are the same
list (the model's form, log 4). -/
def Obligations.CanonicalFormIsUnique : Prop :=
  ∀ m m' : Memory, m.wf → m'.wf → (∀ addr : Word, m.read addr.toNat = m'.read addr.toNat) → m = m'

/-- Every memory image is some state's: for every function from addresses to bytes there is a canonical byte store that
reads as it, so statements about every state are about every `mem0` (R40, R48; log 4). -/
def Obligations.EveryImageIsSomeMemory : Prop :=
  ∀ image : Word → Byte, ∃ m : Memory, m.wf ∧ ∀ addr : Word, m.read addr.toNat = image addr

/-- Every `MemAdmit` is some state's: for every verdict function there is a table that answers as it, so statements about
every state are about every `MemAdmit` (R40; log 2). -/
def Obligations.EveryVerdictIsSomeTable : Prop :=
  ∀ verdict : AccessKind → Word → Width → Bool,
    ∃ table : List AdmitRow, ∀ kind addr n, memAdmit table kind addr n = verdict kind addr n

/-! ## Runs, loading, notation -/

/-- `run()` goes on exactly while the status is Running (R99, R171): a run of more fuel is the run continued, a state with
a terminal status is where every run from it stays, and `runResult` answers exactly there. -/
def Obligations.RunStopsAtTheTerminalStatus : Prop :=
  (∀ (m n : Nat) (s : State), hostRun (m + n) s = hostRun n (hostRun m s)) ∧
  (∀ (n : Nat) (s : State), s.status ≠ .running → hostStep s = s ∧ hostRun n s = s) ∧
  (∀ s : State, s.status = .running → hostRun 1 s = hostStep s) ∧
  ∀ status : Status, runResult status = none ↔ status = .running

/-- `JAL x0, 0` loops on itself for ever and is no terminal condition: no amount of fuel changes the state (R130, R99). -/
def Obligations.JumpToItselfNeverEnds : Prop :=
  ∀ (s : State) (fuel : Nat), s.status = .running → s.pc.getLsbD 0 = false →
    memAdmit s.verdict .fetch s.pc .word = true → wordAt s s.pc = 0x0000006F#32 → hostRun fuel s = s

/-- The fault codes run() returns (R160; the numbers are the spec's decision D27). -/
def Obligations.FaultCodes : Prop :=
  (∀ a, runResult (.faulted (.misalignedProgramCounter a)) = some (.faultCode 1)) ∧
  (∀ a w o, runResult (.faulted (.unknownOpcode a w o)) = some (.faultCode 2)) ∧
  (∀ a w o f g, runResult (.faulted (.unknownFunct a w o f g)) = some (.faultCode 3)) ∧
  (∀ a w v m, runResult (.faulted (.decoderConsistencyFault a w v m)) = some (.faultCode 4)) ∧
  (∀ a k ea n, runResult (.faulted (.memoryFault a k ea n)) = some (.faultCode 5)) ∧
  (∀ a n, runResult (.faulted (.unsupportedSyscall a n)) = some (.faultCode 6)) ∧
  ∀ c, runResult (.exited c) = some (.exitCode c)

/-- An instruction put where the machine fetches is what the next step runs, and putting it there changes those four
bytes of memory only (the model's loader, log 5). -/
def Obligations.PlacedInstructionRuns : Prop :=
  ∀ (s : State) (i : Instr), Inv s → s.status = .running → memAdmit s.verdict .fetch s.pc .word = true →
    i.wellFormed = true →
    step (s.withFetchWord 32 (encode i).toNat) = exec i (s.withFetchWord 32 (encode i).toNat) ∧
    StoredAt s (s.withFetchWord 32 (encode i).toNat) s.pc 4 ((encode i).setWidth 64) s.pc

/-- The two-instruction expansion of `li rd, imm` leaves the sign extension of every 32-bit immediate in rd, the upper part
being adjusted for the sign of the lower (R89, R69, R104; notation, log 20). -/
def Obligations.LoadImmediateExpansion : Prop :=
  ∀ (s : State) (rd : RegIdx) (imm : BitVec 32), rd ≠ 0#5 →
    ∃ i j t u, Pseudo.expand (.li32 rd imm) = [i, j] ∧ exec i s = .next t ∧ exec j t = .next u ∧
      u.readReg rd = imm.signExtend 64 ∧ u.pc = s.pc + 8#64
end

