-- ==== Sys2Proof/Laws/Decode.lean ====
section
/-! SUPPORT. The fields of each layout and each layout of its fields (30_encoding.md R61 to R65), the family of each
opcode (R73), the self-check (R85), and what it takes for a word to decode. -/

namespace Sys2Proof

/-! ## Reading a layout's fields back -/

section Layouts
variable (f7 op : BitVec 7) (f6 sh : BitVec 6) (f3 : BitVec 3) (rd rs1 rs2 : RegIdx) (i12 : BitVec 12)
  (i13 : BitVec 13) (i20 : BitVec 20) (i21 : BitVec 21)

@[simp] theorem rType_opcode : opcodeOf (rType f7 rs2 rs1 f3 rd op) = op := by
  apply BitVec.eq_of_getLsbD_eq
  intro i hi
  simp only [opcodeOf, rType, BitVec.getLsbD_append, BitVec.getLsbD_extractLsb']
  interval_cases i <;> simp

@[simp] theorem rType_funct7 : funct7Of (rType f7 rs2 rs1 f3 rd op) = f7 := by
  apply BitVec.eq_of_getLsbD_eq
  intro i hi
  simp only [funct7Of, rType, BitVec.getLsbD_append, BitVec.getLsbD_extractLsb']
  interval_cases i <;> simp

@[simp] theorem rType_rs2 : rs2Of (rType f7 rs2 rs1 f3 rd op) = rs2 := by
  apply BitVec.eq_of_getLsbD_eq
  intro i hi
  simp only [rs2Of, rType, BitVec.getLsbD_append, BitVec.getLsbD_extractLsb']
  interval_cases i <;> simp

@[simp] theorem rType_rs1 : rs1Of (rType f7 rs2 rs1 f3 rd op) = rs1 := by
  apply BitVec.eq_of_getLsbD_eq
  intro i hi
  simp only [rs1Of, rType, BitVec.getLsbD_append, BitVec.getLsbD_extractLsb']
  interval_cases i <;> simp

@[simp] theorem rType_funct3 : funct3Of (rType f7 rs2 rs1 f3 rd op) = f3 := by
  apply BitVec.eq_of_getLsbD_eq
  intro i hi
  simp only [funct3Of, rType, BitVec.getLsbD_append, BitVec.getLsbD_extractLsb']
  interval_cases i <;> simp

@[simp] theorem rType_rd : rdOf (rType f7 rs2 rs1 f3 rd op) = rd := by
  apply BitVec.eq_of_getLsbD_eq
  intro i hi
  simp only [rdOf, rType, BitVec.getLsbD_append, BitVec.getLsbD_extractLsb']
  interval_cases i <;> simp

@[simp] theorem iType_opcode : opcodeOf (iType i12 rs1 f3 rd op) = op := by
  apply BitVec.eq_of_getLsbD_eq
  intro i hi
  simp only [opcodeOf, iType, BitVec.getLsbD_append, BitVec.getLsbD_extractLsb']
  interval_cases i <;> simp

@[simp] theorem iType_rs1 : rs1Of (iType i12 rs1 f3 rd op) = rs1 := by
  apply BitVec.eq_of_getLsbD_eq
  intro i hi
  simp only [rs1Of, iType, BitVec.getLsbD_append, BitVec.getLsbD_extractLsb']
  interval_cases i <;> simp

@[simp] theorem iType_funct3 : funct3Of (iType i12 rs1 f3 rd op) = f3 := by
  apply BitVec.eq_of_getLsbD_eq
  intro i hi
  simp only [funct3Of, iType, BitVec.getLsbD_append, BitVec.getLsbD_extractLsb']
  interval_cases i <;> simp

@[simp] theorem iType_rd : rdOf (iType i12 rs1 f3 rd op) = rd := by
  apply BitVec.eq_of_getLsbD_eq
  intro i hi
  simp only [rdOf, iType, BitVec.getLsbD_append, BitVec.getLsbD_extractLsb']
  interval_cases i <;> simp

@[simp] theorem iType_imm : fieldI (iType i12 rs1 f3 rd op) = i12 := by
  apply BitVec.eq_of_getLsbD_eq
  intro i hi
  simp only [fieldI, iType, BitVec.getLsbD_append, BitVec.getLsbD_extractLsb']
  interval_cases i <;> simp

@[simp] theorem shiftType_opcode : opcodeOf (shiftType f6 sh rs1 f3 rd op) = op := by
  apply BitVec.eq_of_getLsbD_eq
  intro i hi
  simp only [opcodeOf, shiftType, BitVec.getLsbD_append, BitVec.getLsbD_extractLsb']
  interval_cases i <;> simp

@[simp] theorem shiftType_rs1 : rs1Of (shiftType f6 sh rs1 f3 rd op) = rs1 := by
  apply BitVec.eq_of_getLsbD_eq
  intro i hi
  simp only [rs1Of, shiftType, BitVec.getLsbD_append, BitVec.getLsbD_extractLsb']
  interval_cases i <;> simp

@[simp] theorem shiftType_funct3 : funct3Of (shiftType f6 sh rs1 f3 rd op) = f3 := by
  apply BitVec.eq_of_getLsbD_eq
  intro i hi
  simp only [funct3Of, shiftType, BitVec.getLsbD_append, BitVec.getLsbD_extractLsb']
  interval_cases i <;> simp

@[simp] theorem shiftType_rd : rdOf (shiftType f6 sh rs1 f3 rd op) = rd := by
  apply BitVec.eq_of_getLsbD_eq
  intro i hi
  simp only [rdOf, shiftType, BitVec.getLsbD_append, BitVec.getLsbD_extractLsb']
  interval_cases i <;> simp

@[simp] theorem shiftType_shamt : shamtOf (shiftType f6 sh rs1 f3 rd op) = sh := by
  apply BitVec.eq_of_getLsbD_eq
  intro i hi
  simp only [shamtOf, shiftType, BitVec.getLsbD_append, BitVec.getLsbD_extractLsb']
  interval_cases i <;> simp

@[simp] theorem shiftType_funct6 : (shiftType f6 sh rs1 f3 rd op).extractLsb' 26 6 = f6 := by
  apply BitVec.eq_of_getLsbD_eq
  intro i hi
  simp only [shiftType, BitVec.getLsbD_append, BitVec.getLsbD_extractLsb']
  interval_cases i <;> simp

@[simp] theorem sType_opcode : opcodeOf (sType i12 rs2 rs1 f3 op) = op := by
  apply BitVec.eq_of_getLsbD_eq
  intro i hi
  simp only [opcodeOf, sType, BitVec.getLsbD_append, BitVec.getLsbD_extractLsb']
  interval_cases i <;> simp

@[simp] theorem sType_rs2 : rs2Of (sType i12 rs2 rs1 f3 op) = rs2 := by
  apply BitVec.eq_of_getLsbD_eq
  intro i hi
  simp only [rs2Of, sType, BitVec.getLsbD_append, BitVec.getLsbD_extractLsb']
  interval_cases i <;> simp

@[simp] theorem sType_rs1 : rs1Of (sType i12 rs2 rs1 f3 op) = rs1 := by
  apply BitVec.eq_of_getLsbD_eq
  intro i hi
  simp only [rs1Of, sType, BitVec.getLsbD_append, BitVec.getLsbD_extractLsb']
  interval_cases i <;> simp

@[simp] theorem sType_funct3 : funct3Of (sType i12 rs2 rs1 f3 op) = f3 := by
  apply BitVec.eq_of_getLsbD_eq
  intro i hi
  simp only [funct3Of, sType, BitVec.getLsbD_append, BitVec.getLsbD_extractLsb']
  interval_cases i <;> simp

@[simp] theorem sType_imm : fieldS (sType i12 rs2 rs1 f3 op) = i12 := by
  apply BitVec.eq_of_getLsbD_eq
  intro i hi
  simp only [fieldS, sType, BitVec.getLsbD_append, BitVec.getLsbD_extractLsb']
  interval_cases i <;> simp

@[simp] theorem bType_opcode : opcodeOf (bType i13 rs2 rs1 f3 op) = op := by
  apply BitVec.eq_of_getLsbD_eq
  intro i hi
  simp only [opcodeOf, bType, BitVec.getLsbD_append, BitVec.getLsbD_extractLsb']
  interval_cases i <;> simp

@[simp] theorem bType_rs2 : rs2Of (bType i13 rs2 rs1 f3 op) = rs2 := by
  apply BitVec.eq_of_getLsbD_eq
  intro i hi
  simp only [rs2Of, bType, BitVec.getLsbD_append, BitVec.getLsbD_extractLsb']
  interval_cases i <;> simp

@[simp] theorem bType_rs1 : rs1Of (bType i13 rs2 rs1 f3 op) = rs1 := by
  apply BitVec.eq_of_getLsbD_eq
  intro i hi
  simp only [rs1Of, bType, BitVec.getLsbD_append, BitVec.getLsbD_extractLsb']
  interval_cases i <;> simp

@[simp] theorem bType_funct3 : funct3Of (bType i13 rs2 rs1 f3 op) = f3 := by
  apply BitVec.eq_of_getLsbD_eq
  intro i hi
  simp only [funct3Of, bType, BitVec.getLsbD_append, BitVec.getLsbD_extractLsb']
  interval_cases i <;> simp

theorem bType_imm (h : i13.getLsbD 0 = false) : fieldB (bType i13 rs2 rs1 f3 op) = i13 := by
  apply BitVec.eq_of_getLsbD_eq
  intro i hi
  simp only [fieldB, bType, BitVec.getLsbD_append, BitVec.getLsbD_extractLsb']
  interval_cases i <;> simp [h, -BitVec.getLsbD_eq_getElem]

@[simp] theorem uType_opcode : opcodeOf (uType i20 rd op) = op := by
  apply BitVec.eq_of_getLsbD_eq
  intro i hi
  simp only [opcodeOf, uType, BitVec.getLsbD_append, BitVec.getLsbD_extractLsb']
  interval_cases i <;> simp

@[simp] theorem uType_rd : rdOf (uType i20 rd op) = rd := by
  apply BitVec.eq_of_getLsbD_eq
  intro i hi
  simp only [rdOf, uType, BitVec.getLsbD_append, BitVec.getLsbD_extractLsb']
  interval_cases i <;> simp

@[simp] theorem uType_imm : fieldU (uType i20 rd op) = i20 := by
  apply BitVec.eq_of_getLsbD_eq
  intro i hi
  simp only [fieldU, uType, BitVec.getLsbD_append, BitVec.getLsbD_extractLsb']
  interval_cases i <;> simp

@[simp] theorem jType_opcode : opcodeOf (jType i21 rd op) = op := by
  apply BitVec.eq_of_getLsbD_eq
  intro i hi
  simp only [opcodeOf, jType, BitVec.getLsbD_append, BitVec.getLsbD_extractLsb']
  interval_cases i <;> simp

@[simp] theorem jType_rd : rdOf (jType i21 rd op) = rd := by
  apply BitVec.eq_of_getLsbD_eq
  intro i hi
  simp only [rdOf, jType, BitVec.getLsbD_append, BitVec.getLsbD_extractLsb']
  interval_cases i <;> simp

theorem jType_imm (h : i21.getLsbD 0 = false) : fieldJ (jType i21 rd op) = i21 := by
  apply BitVec.eq_of_getLsbD_eq
  intro i hi
  simp only [fieldJ, jType, BitVec.getLsbD_append, BitVec.getLsbD_extractLsb']
  interval_cases i <;> simp [h, -BitVec.getLsbD_eq_getElem]

end Layouts

/-! ## A word is the layout of its fields -/

theorem rType_of_fields (w : InstrWord) :
    rType (funct7Of w) (rs2Of w) (rs1Of w) (funct3Of w) (rdOf w) (opcodeOf w) = w := by
  apply BitVec.eq_of_getLsbD_eq
  intro i hi
  simp only [rType, funct7Of, rs2Of, rs1Of, funct3Of, rdOf, opcodeOf, BitVec.getLsbD_append, BitVec.getLsbD_extractLsb']
  interval_cases i <;> simp

theorem iType_of_fields (w : InstrWord) :
    iType (fieldI w) (rs1Of w) (funct3Of w) (rdOf w) (opcodeOf w) = w := by
  apply BitVec.eq_of_getLsbD_eq
  intro i hi
  simp only [iType, fieldI, rs1Of, funct3Of, rdOf, opcodeOf, BitVec.getLsbD_append, BitVec.getLsbD_extractLsb']
  interval_cases i <;> simp

theorem shiftType_of_fields (w : InstrWord) :
    shiftType (w.extractLsb' 26 6) (shamtOf w) (rs1Of w) (funct3Of w) (rdOf w) (opcodeOf w) = w := by
  apply BitVec.eq_of_getLsbD_eq
  intro i hi
  simp only [shiftType, shamtOf, rs1Of, funct3Of, rdOf, opcodeOf, BitVec.getLsbD_append, BitVec.getLsbD_extractLsb']
  interval_cases i <;> simp

theorem sType_of_fields (w : InstrWord) :
    sType (fieldS w) (rs2Of w) (rs1Of w) (funct3Of w) (opcodeOf w) = w := by
  apply BitVec.eq_of_getLsbD_eq
  intro i hi
  simp only [sType, fieldS, rs2Of, rs1Of, funct3Of, opcodeOf, BitVec.getLsbD_append, BitVec.getLsbD_extractLsb']
  interval_cases i <;> simp

theorem bType_of_fields (w : InstrWord) :
    bType (fieldB w) (rs2Of w) (rs1Of w) (funct3Of w) (opcodeOf w) = w := by
  apply BitVec.eq_of_getLsbD_eq
  intro i hi
  simp only [bType, fieldB, rs2Of, rs1Of, funct3Of, opcodeOf, BitVec.getLsbD_append, BitVec.getLsbD_extractLsb']
  interval_cases i <;> simp

theorem uType_of_fields (w : InstrWord) :
    uType (fieldU w) (rdOf w) (opcodeOf w) = w := by
  apply BitVec.eq_of_getLsbD_eq
  intro i hi
  simp only [uType, fieldU, rdOf, opcodeOf, BitVec.getLsbD_append, BitVec.getLsbD_extractLsb']
  interval_cases i <;> simp

theorem jType_of_fields (w : InstrWord) :
    jType (fieldJ w) (rdOf w) (opcodeOf w) = w := by
  apply BitVec.eq_of_getLsbD_eq
  intro i hi
  simp only [jType, fieldJ, rdOf, opcodeOf, BitVec.getLsbD_append, BitVec.getLsbD_extractLsb']
  interval_cases i <;> simp

/-! ## The fixed bits under each mask of the opcode table -/

theorem and_mask_opcode (w : InstrWord) : w &&& 0x0000007F#32 = (0#25 ++ opcodeOf w : InstrWord) := by
  apply BitVec.eq_of_getLsbD_eq
  intro i hi
  simp only [opcodeOf, BitVec.getLsbD_append, BitVec.getLsbD_extractLsb', BitVec.getLsbD_and]
  interval_cases i <;> simp

theorem and_mask_funct3 (w : InstrWord) : w &&& 0x0000707F#32 = (0#17 ++ funct3Of w ++ 0#5 ++ opcodeOf w : InstrWord) := by
  apply BitVec.eq_of_getLsbD_eq
  intro i hi
  simp only [funct3Of, opcodeOf, BitVec.getLsbD_append, BitVec.getLsbD_extractLsb', BitVec.getLsbD_and]
  interval_cases i <;> simp

theorem and_mask_funct6 (w : InstrWord) : w &&& 0xFC00707F#32 = (w.extractLsb' 26 6 ++ 0#11 ++ funct3Of w ++ 0#5 ++ opcodeOf w : InstrWord) := by
  apply BitVec.eq_of_getLsbD_eq
  intro i hi
  simp only [funct3Of, opcodeOf, BitVec.getLsbD_append, BitVec.getLsbD_extractLsb', BitVec.getLsbD_and]
  interval_cases i <;> simp

theorem and_mask_funct7 (w : InstrWord) : w &&& 0xFE00707F#32 = (funct7Of w ++ 0#10 ++ funct3Of w ++ 0#5 ++ opcodeOf w : InstrWord) := by
  apply BitVec.eq_of_getLsbD_eq
  intro i hi
  simp only [funct7Of, funct3Of, opcodeOf, BitVec.getLsbD_append, BitVec.getLsbD_extractLsb', BitVec.getLsbD_and]
  interval_cases i <;> simp

/-! ## Dispatch -/

/-- The length test looks at the opcode's low bits, so every opcode of R73 belongs to a 4-byte word (R60). -/
theorem isFourByte_eq (w : InstrWord) : isFourByte w = ((opcodeOf w).extractLsb' 0 2 == 0b11#2) := by
  have : w.extractLsb' 0 2 = (opcodeOf w).extractLsb' 0 2 := by
    apply BitVec.eq_of_getLsbD_eq
    intro i hi
    simp only [opcodeOf, BitVec.getLsbD_extractLsb']
    interval_cases i <;> simp
  rw [isFourByte, this]

theorem isFourByte_of_family {w : InstrWord} {f : Family} (h : opcodeOf w = f.opcode) : isFourByte w = true := by
  rw [isFourByte_eq, h]
  cases f <;> rfl

/-- The opcode table of R73 read in both directions. -/
theorem familyOf_opcode (f : Family) : familyOf f.opcode = some f := by cases f <;> rfl

theorem opcode_of_familyOf : ∀ {o : BitVec 7} {f : Family}, familyOf o = some f → o = f.opcode := by
  intro o f
  cases f <;> revert o <;> decide

/-- Dispatch and the built instruction always agree, so the self-check passes (R85). -/
theorem buildInstr_variant (v : Variant) (w : InstrWord) : (buildInstr v w).variant = v := by cases v <;> rfl

theorem selfCheck_build (v : Variant) (w : InstrWord) : selfCheck v (buildInstr v w) = .ok (buildInstr v w) := by
  rw [selfCheck, if_pos (buildInstr_variant v w)]

/-- No two variants share a mnemonic, so comparing variants is comparing mnemonics (R81, R85; log 14). -/
theorem mnemonic_injective {v v' : Variant} (h : v.mnemonic = v'.mnemonic) : v = v' := by
  cases v <;> cases v' <;> first | rfl | (exact absurd h (by decide))

/-- A word of a family decodes to the variant its funct fields select, and is UnknownFunct when they select none. -/
theorem decode_of_family {w : InstrWord} {f : Family} (h : opcodeOf w = f.opcode) : decode w =
    match variantIn f w with
    | none => .error .unknownFunct
    | some v => .ok (buildInstr v w) := by
  rw [decode, if_pos (isFourByte_of_family h), h, familyOf_opcode]
  cases hv : variantIn f w with
  | none => simp only [hv]
  | some v => simp only [hv, selfCheck_build]

/-- What it takes for a word to decode (R86). -/
theorem decode_eq_ok_iff {w : InstrWord} {i : Instr} : decode w = .ok i ↔
    ∃ f v, opcodeOf w = f.opcode ∧ variantIn f w = some v ∧ i = buildInstr v w := by
  constructor
  · intro h
    cases hf : familyOf (opcodeOf w) with
    | none =>
      rw [decode] at h
      split at h
      · rw [hf] at h; cases h
      · cases h
    | some f =>
      have ho := opcode_of_familyOf hf
      rw [decode_of_family ho] at h
      cases hv : variantIn f w with
      | none => rw [hv] at h; cases h
      | some v => rw [hv] at h; injection h with h; exact ⟨f, v, ho, hv, h.symm⟩
  · rintro ⟨f, v, ho, hv, rfl⟩
    rw [decode_of_family ho, hv]

/-- The bytes of a word decode as the word, whatever follows them (R44). -/
theorem wordOfBytes_bytes (w : InstrWord) : wordOfBytes (w.extractLsb' 0 8) (w.extractLsb' 8 8) (w.extractLsb' 16 8)
    (w.extractLsb' 24 8) = w := by
  apply BitVec.eq_of_getLsbD_eq
  intro i hi
  simp only [wordOfBytes, BitVec.getLsbD_append, BitVec.getLsbD_extractLsb']
  interval_cases i <;> simp

theorem decodeBytes_of_word (w : InstrWord) (rest : List Byte) : decodeBytes (bytesOfWord w ++ rest) =
    match decode w with
    | .ok i => .ok (i, rest)
    | .error e => .error (.rejected e) := by
  simp only [bytesOfWord, List.cons_append, List.nil_append, decodeBytes, wordOfBytes_bytes] <;>
    cases decode w <;> rfl

end Sys2Proof
end

