-- ==== Sys2Proof/Laws/State.lean ====
section
/-! SUPPORT. One lemma per field per update of State, and what a register read gives after each update. -/

namespace Sys2Proof.Machine

@[simp] theorem setPc_pc (s : State) (a : Word) : (s.setPc a).pc = a := rfl
@[simp] theorem setPc_regs (s : State) (a : Word) : (s.setPc a).regs = s.regs := rfl
@[simp] theorem setPc_status (s : State) (a : Word) : (s.setPc a).status = s.status := rfl
@[simp] theorem setPc_mem (s : State) (a : Word) : (s.setPc a).mem = s.mem := rfl
@[simp] theorem setPc_verdict (s : State) (a : Word) : (s.setPc a).verdict = s.verdict := rfl

@[simp] theorem advancePc_pc (s : State) : s.advancePc.pc = s.pc + 4#64 := rfl
@[simp] theorem advancePc_regs (s : State) : s.advancePc.regs = s.regs := rfl
@[simp] theorem advancePc_status (s : State) : s.advancePc.status = s.status := rfl
@[simp] theorem advancePc_mem (s : State) : s.advancePc.mem = s.mem := rfl
@[simp] theorem advancePc_verdict (s : State) : s.advancePc.verdict = s.verdict := rfl

@[simp] theorem setStatus_pc (s : State) (x : Status) : (s.setStatus x).pc = s.pc := rfl
@[simp] theorem setStatus_regs (s : State) (x : Status) : (s.setStatus x).regs = s.regs := rfl
@[simp] theorem setStatus_status (s : State) (x : Status) : (s.setStatus x).status = x := rfl
@[simp] theorem setStatus_mem (s : State) (x : Status) : (s.setStatus x).mem = s.mem := rfl
@[simp] theorem setStatus_verdict (s : State) (x : Status) : (s.setStatus x).verdict = s.verdict := rfl

@[simp] theorem raiseFault_pc (s : State) (f : FaultRecord) : (s.raiseFault f).pc = s.pc := rfl
@[simp] theorem raiseFault_regs (s : State) (f : FaultRecord) : (s.raiseFault f).regs = s.regs := rfl
@[simp] theorem raiseFault_status (s : State) (f : FaultRecord) : (s.raiseFault f).status = .faulted f := rfl
@[simp] theorem raiseFault_mem (s : State) (f : FaultRecord) : (s.raiseFault f).mem = s.mem := rfl
@[simp] theorem raiseFault_verdict (s : State) (f : FaultRecord) : (s.raiseFault f).verdict = s.verdict := rfl

@[simp] theorem haltExited_pc (s : State) (c : Word) : (s.haltExited c).pc = s.pc := rfl
@[simp] theorem haltExited_regs (s : State) (c : Word) : (s.haltExited c).regs = s.regs := rfl
@[simp] theorem haltExited_status (s : State) (c : Word) : (s.haltExited c).status = .exited c := rfl
@[simp] theorem haltExited_mem (s : State) (c : Word) : (s.haltExited c).mem = s.mem := rfl
@[simp] theorem haltExited_verdict (s : State) (c : Word) : (s.haltExited c).verdict = s.verdict := rfl

@[simp] theorem setMem_pc (s : State) (m : Memory) : (s.setMem m).pc = s.pc := rfl
@[simp] theorem setMem_regs (s : State) (m : Memory) : (s.setMem m).regs = s.regs := rfl
@[simp] theorem setMem_status (s : State) (m : Memory) : (s.setMem m).status = s.status := rfl
@[simp] theorem setMem_mem (s : State) (m : Memory) : (s.setMem m).mem = m := rfl
@[simp] theorem setMem_verdict (s : State) (m : Memory) : (s.setMem m).verdict = s.verdict := rfl

@[simp] theorem writeReg_pc (s : State) (i : RegIdx) (v : Word) : (s.writeReg i v).pc = s.pc := by
  unfold State.writeReg; split <;> rfl
@[simp] theorem writeReg_status (s : State) (i : RegIdx) (v : Word) : (s.writeReg i v).status = s.status := by
  unfold State.writeReg; split <;> rfl
@[simp] theorem writeReg_mem (s : State) (i : RegIdx) (v : Word) : (s.writeReg i v).mem = s.mem := by
  unfold State.writeReg; split <;> rfl
@[simp] theorem writeReg_verdict (s : State) (i : RegIdx) (v : Word) : (s.writeReg i v).verdict = s.verdict := by
  unfold State.writeReg; split <;> rfl

/-- No write reaches the slot of register 0 (R23). -/
@[simp] theorem writeReg_zeroSlot (s : State) (i : RegIdx) (v : Word) : (s.writeReg i v).regs[0] = s.regs[0] := by
  unfold State.writeReg
  split
  · rfl
  · rename_i h
    have : i.toNat ≠ 0 := fun h0 => h (BitVec.eq_of_toNat_eq (by simpa using h0))
    simp [this]

/-! ## Register reads -/

/-- A register read depends on the register file alone. -/
theorem readReg_congr {s t : State} (h : t.regs = s.regs) (i : RegIdx) : t.readReg i = s.readReg i := by
  unfold State.readReg; simp only [h]

@[simp] theorem readReg_zero (s : State) : s.readReg 0#5 = 0#64 := by simp [State.readReg]

@[simp] theorem setPc_readReg (s : State) (a : Word) (i : RegIdx) : (s.setPc a).readReg i = s.readReg i := rfl
@[simp] theorem advancePc_readReg (s : State) (i : RegIdx) : s.advancePc.readReg i = s.readReg i := rfl
@[simp] theorem setStatus_readReg (s : State) (x : Status) (i : RegIdx) : (s.setStatus x).readReg i = s.readReg i := rfl
@[simp] theorem raiseFault_readReg (s : State) (f : FaultRecord) (i : RegIdx) :
    (s.raiseFault f).readReg i = s.readReg i := rfl
@[simp] theorem haltExited_readReg (s : State) (c : Word) (i : RegIdx) :
    (s.haltExited c).readReg i = s.readReg i := rfl
@[simp] theorem setMem_readReg (s : State) (m : Memory) (i : RegIdx) : (s.setMem m).readReg i = s.readReg i := rfl

/-- Reading a register just written gives the value, and 0 for register 0 (R22, R23). -/
theorem writeReg_readReg_same (s : State) (i : RegIdx) (v : Word) :
    (s.writeReg i v).readReg i = if i = 0#5 then 0#64 else v := by
  unfold State.writeReg State.readReg
  by_cases h : i = 0#5 <;> simp [h]

/-- Writing one register leaves every other one alone. -/
theorem writeReg_readReg_ne (s : State) {i j : RegIdx} (v : Word) (h : j ≠ i) :
    (s.writeReg i v).readReg j = s.readReg j := by
  unfold State.writeReg State.readReg
  have : i.toNat ≠ j.toNat := fun h0 => h (BitVec.eq_of_toNat_eq h0).symm
  by_cases h0 : i = 0#5 <;> simp [h0, this]

/-! ## Byte reads -/

@[simp] theorem setPc_byteAt (s : State) (a b : Word) : (s.setPc a).byteAt b = s.byteAt b := rfl
@[simp] theorem advancePc_byteAt (s : State) (b : Word) : s.advancePc.byteAt b = s.byteAt b := rfl
@[simp] theorem raiseFault_byteAt (s : State) (f : FaultRecord) (b : Word) : (s.raiseFault f).byteAt b = s.byteAt b := rfl
@[simp] theorem haltExited_byteAt (s : State) (c b : Word) : (s.haltExited c).byteAt b = s.byteAt b := rfl
@[simp] theorem writeReg_byteAt (s : State) (i : RegIdx) (v b : Word) : (s.writeReg i v).byteAt b = s.byteAt b := by
  unfold State.byteAt; simp
@[simp] theorem setMem_byteAt (s : State) (m : Memory) (b : Word) : (s.setMem m).byteAt b = m.read b.toNat := rfl

end Sys2Proof.Machine
end

