-- ==== Sys2Proof/Laws/Retire.lean ====
section
/-! SUPPORT. What `retire` answers, once for each shape of Execution Unit output (40_datapath.md R93 to R97). -/

namespace Sys2Proof.Machine

/-- Shape "result only": the destination is written and the pc advances (R96, R97, R100). -/
theorem retire_value {s : State} {d : DecodedRecord} {u : DecodedRecord → ExecOut} {v : Word} (h : u d = .value v) :
    retire s d u = .next (s.advancePc.writeReg d.dest v) := by
  simp [retire, h, ExecOut.value, stages, memoryStage, writeBack, commitPc]

/-- Shape "result and target": the link is written and the pc is the target (R97). -/
theorem retire_jump {s : State} {d : DecodedRecord} {u : DecodedRecord → ExecOut} {v target : Word}
    (h : u d = { result := some v, target := some target }) :
    retire s d u = .next ((s.advancePc.writeReg d.dest v).setPc target) := by
  simp [retire, h, stages, memoryStage, writeBack, commitPc]

/-- Shape "target only": a taken branch (R132). -/
theorem retire_target {s : State} {d : DecodedRecord} {u : DecodedRecord → ExecOut} {target : Word}
    (h : u d = { target := some target }) : retire s d u = .next (s.advancePc.setPc target) := by
  simp [retire, h, stages, memoryStage, writeBack, commitPc]

/-- Shape "nothing": a branch not taken (R132). -/
theorem retire_nothing {s : State} {d : DecodedRecord} {u : DecodedRecord → ExecOut} (h : u d = {}) :
    retire s d u = .next s.advancePc := by
  simp [retire, h, stages, memoryStage, writeBack, commitPc]

/-- Shape "load": the extended value is written, or the port's refusal is raised (R94, R140). -/
theorem retire_load {s : State} {d : DecodedRecord} {u : DecodedRecord → ExecOut} {ea : Word} {n : Width} {ext : Extend}
    (h : u d = { memreq := some (.load ea n ext) }) :
    retire s d u = .next (if memAdmit s.verdict .load ea n
      then s.advancePc.writeReg d.dest (extendValue ext (s.mem.readLE ea n.bytes))
      else s.advancePc.raiseFault (.memoryFault d.a .load ea n)) := by
  by_cases hm : memAdmit s.verdict .load ea n <;>
    simp [retire, h, stages, memoryStage, memRead, hm, writeBack, commitPc]

/-- Shape "store": all the bytes are written, or the port's refusal is raised (R94, R147). -/
theorem retire_store {s : State} {d : DecodedRecord} {u : DecodedRecord → ExecOut} {ea : Word} {n : Width}
    {v : BitVec (8 * n.bytes)} (h : u d = { memreq := some (.store ea n v) }) :
    retire s d u = .next (if memAdmit s.verdict .store ea n
      then s.advancePc.setMem (s.mem.writeLE ea n.bytes v)
      else s.advancePc.raiseFault (.memoryFault d.a .store ea n)) := by
  by_cases hm : memAdmit s.verdict .store ea n <;>
    simp [retire, h, stages, memoryStage, memWrite, hm, writeBack, commitPc]

/-- Shape "system request": the run ends, by exit or by fault (R95, R153, R154). -/
theorem retire_system {s : State} {d : DecodedRecord} {u : DecodedRecord → ExecOut} {r : SysRequest}
    (h : u d = { sysreq := some r }) : retire s d u = .next (systemCall s.advancePc d.a r) := by
  simp [retire, h, stages, memoryStage]

end Sys2Proof.Machine
end

