-- ==== Sys2Proof/Laws/Exec.lean ====
section
/-! SUPPORT. The next state of every instruction in the named operations of Ops.lean, one equation per constructor of
Instr; later proofs cite these and do not unfold a meaning. -/

namespace Sys2Proof.Machine

theorem exec_add (s : State) (rd rs1 rs2 : RegIdx) :
    exec (.add rd rs1 rs2) s = .next (s.advancePc.writeReg rd (s.readReg rs1 + s.readReg rs2)) :=
  retire_value rfl

theorem exec_sub (s : State) (rd rs1 rs2 : RegIdx) :
    exec (.sub rd rs1 rs2) s = .next (s.advancePc.writeReg rd (s.readReg rs1 - s.readReg rs2)) :=
  retire_value rfl

theorem exec_sll (s : State) (rd rs1 rs2 : RegIdx) :
    exec (.sll rd rs1 rs2) s = .next (s.advancePc.writeReg rd (s.readReg rs1 <<< shiftAmount (s.readReg rs2))) :=
  retire_value rfl

theorem exec_slt (s : State) (rd rs1 rs2 : RegIdx) :
    exec (.slt rd rs1 rs2) s = .next (s.advancePc.writeReg rd (boolWord (cmpLtSigned (s.readReg rs1) (s.readReg rs2)))) :=
  retire_value rfl

theorem exec_sltu (s : State) (rd rs1 rs2 : RegIdx) :
    exec (.sltu rd rs1 rs2) s = .next (s.advancePc.writeReg rd (boolWord (cmpLtUnsigned (s.readReg rs1) (s.readReg rs2)))) :=
  retire_value rfl

theorem exec_xor (s : State) (rd rs1 rs2 : RegIdx) :
    exec (.xor rd rs1 rs2) s = .next (s.advancePc.writeReg rd (s.readReg rs1 ^^^ s.readReg rs2)) :=
  retire_value rfl

theorem exec_srl (s : State) (rd rs1 rs2 : RegIdx) :
    exec (.srl rd rs1 rs2) s = .next (s.advancePc.writeReg rd (s.readReg rs1 >>> shiftAmount (s.readReg rs2))) :=
  retire_value rfl

theorem exec_sra (s : State) (rd rs1 rs2 : RegIdx) :
    exec (.sra rd rs1 rs2) s = .next (s.advancePc.writeReg rd ((s.readReg rs1).sshiftRight (shiftAmount (s.readReg rs2)))) :=
  retire_value rfl

theorem exec_or (s : State) (rd rs1 rs2 : RegIdx) :
    exec (.or rd rs1 rs2) s = .next (s.advancePc.writeReg rd (s.readReg rs1 ||| s.readReg rs2)) :=
  retire_value rfl

theorem exec_and (s : State) (rd rs1 rs2 : RegIdx) :
    exec (.and rd rs1 rs2) s = .next (s.advancePc.writeReg rd (s.readReg rs1 &&& s.readReg rs2)) :=
  retire_value rfl

theorem exec_mul (s : State) (rd rs1 rs2 : RegIdx) :
    exec (.mul rd rs1 rs2) s = .next (s.advancePc.writeReg rd ((signedProduct (s.readReg rs1) (s.readReg rs2)).extractLsb' 0 64)) :=
  retire_value rfl

theorem exec_mulh (s : State) (rd rs1 rs2 : RegIdx) :
    exec (.mulh rd rs1 rs2) s = .next (s.advancePc.writeReg rd ((signedProduct (s.readReg rs1) (s.readReg rs2)).extractLsb' 64 64)) :=
  retire_value rfl

theorem exec_div (s : State) (rd rs1 rs2 : RegIdx) :
    exec (.div rd rs1 rs2) s = .next (s.advancePc.writeReg rd (quotient (s.readReg rs1) (s.readReg rs2))) :=
  retire_value rfl

theorem exec_rem (s : State) (rd rs1 rs2 : RegIdx) :
    exec (.rem rd rs1 rs2) s = .next (s.advancePc.writeReg rd (remainder (s.readReg rs1) (s.readReg rs2))) :=
  retire_value rfl

theorem exec_addi (s : State) (rd rs1 : RegIdx) (imm : BitVec 12) :
    exec (.addi rd rs1 imm) s = .next (s.advancePc.writeReg rd (s.readReg rs1 + sext12 imm)) :=
  retire_value rfl

theorem exec_addiw (s : State) (rd rs1 : RegIdx) (imm : BitVec 12) :
    exec (.addiw rd rs1 imm) s = .next (s.advancePc.writeReg rd (((s.readReg rs1 + sext12 imm).setWidth 32).signExtend 64)) :=
  retire_value rfl

theorem exec_slti (s : State) (rd rs1 : RegIdx) (imm : BitVec 12) :
    exec (.slti rd rs1 imm) s = .next (s.advancePc.writeReg rd (boolWord (cmpLtSigned (s.readReg rs1) (sext12 imm)))) :=
  retire_value rfl

theorem exec_sltiu (s : State) (rd rs1 : RegIdx) (imm : BitVec 12) :
    exec (.sltiu rd rs1 imm) s = .next (s.advancePc.writeReg rd (boolWord (cmpLtUnsigned (s.readReg rs1) (sext12 imm)))) :=
  retire_value rfl

theorem exec_xori (s : State) (rd rs1 : RegIdx) (imm : BitVec 12) :
    exec (.xori rd rs1 imm) s = .next (s.advancePc.writeReg rd (s.readReg rs1 ^^^ sext12 imm)) :=
  retire_value rfl

theorem exec_ori (s : State) (rd rs1 : RegIdx) (imm : BitVec 12) :
    exec (.ori rd rs1 imm) s = .next (s.advancePc.writeReg rd (s.readReg rs1 ||| sext12 imm)) :=
  retire_value rfl

theorem exec_andi (s : State) (rd rs1 : RegIdx) (imm : BitVec 12) :
    exec (.andi rd rs1 imm) s = .next (s.advancePc.writeReg rd (s.readReg rs1 &&& sext12 imm)) :=
  retire_value rfl

theorem exec_slli (s : State) (rd rs1 : RegIdx) (shamt : BitVec 6) :
    exec (.slli rd rs1 shamt) s = .next (s.advancePc.writeReg rd (s.readReg rs1 <<< shiftAmount (zextShamt shamt))) :=
  retire_value rfl

theorem exec_srli (s : State) (rd rs1 : RegIdx) (shamt : BitVec 6) :
    exec (.srli rd rs1 shamt) s = .next (s.advancePc.writeReg rd (s.readReg rs1 >>> shiftAmount (zextShamt shamt))) :=
  retire_value rfl

theorem exec_srai (s : State) (rd rs1 : RegIdx) (shamt : BitVec 6) :
    exec (.srai rd rs1 shamt) s = .next (s.advancePc.writeReg rd ((s.readReg rs1).sshiftRight (shiftAmount (zextShamt shamt)))) :=
  retire_value rfl

theorem exec_lui (s : State) (rd : RegIdx) (imm20 : BitVec 20) :
    exec (.lui rd imm20) s = .next (s.advancePc.writeReg rd (placeU imm20)) :=
  retire_value rfl

theorem exec_auipc (s : State) (rd : RegIdx) (imm20 : BitVec 20) :
    exec (.auipc rd imm20) s = .next (s.advancePc.writeReg rd (s.pc + placeU imm20)) :=
  retire_value rfl

theorem exec_jal (s : State) (rd : RegIdx) (offset : BitVec 21) :
    exec (.jal rd offset) s = .next ((s.advancePc.writeReg rd (s.pc + 4#64)).setPc (s.pc + sextJ offset)) :=
  retire_jump rfl

theorem exec_jalr (s : State) (rd rs1 : RegIdx) (imm : BitVec 12) :
    exec (.jalr rd rs1 imm) s = .next ((s.advancePc.writeReg rd (s.pc + 4#64)).setPc ((s.readReg rs1 + sext12 imm) &&& ~~~1#64)) :=
  retire_jump rfl

/-- The branch rule of R132 for any relation. -/
theorem retire_branch (s : State) (v : Variant) (cond : Word → Word → Bool) (rs1 rs2 : RegIdx) (offset : BitVec 13) :
    retire s (operandsBranch s v rs1 rs2 offset) (unitBranch cond) =
      .next (if cond (s.readReg rs1) (s.readReg rs2) then s.advancePc.setPc (s.pc + sextB offset) else s.advancePc) := by
  by_cases h : cond (s.readReg rs1) (s.readReg rs2)
  · rw [if_pos h]
    exact retire_target (by simp [unitBranch, operandsBranch, h])
  · rw [if_neg h]
    exact retire_nothing (by simp [unitBranch, operandsBranch, h])

theorem exec_beq (s : State) (rs1 rs2 : RegIdx) (offset : BitVec 13) :
    exec (.beq rs1 rs2 offset) s = .next (if cmpEq (s.readReg rs1) (s.readReg rs2) then s.advancePc.setPc (s.pc + sextB offset) else s.advancePc) :=
  retire_branch ..

theorem exec_bne (s : State) (rs1 rs2 : RegIdx) (offset : BitVec 13) :
    exec (.bne rs1 rs2 offset) s = .next (if !cmpEq (s.readReg rs1) (s.readReg rs2) then s.advancePc.setPc (s.pc + sextB offset) else s.advancePc) :=
  retire_branch ..

theorem exec_blt (s : State) (rs1 rs2 : RegIdx) (offset : BitVec 13) :
    exec (.blt rs1 rs2 offset) s = .next (if cmpLtSigned (s.readReg rs1) (s.readReg rs2) then s.advancePc.setPc (s.pc + sextB offset) else s.advancePc) :=
  retire_branch ..

theorem exec_bge (s : State) (rs1 rs2 : RegIdx) (offset : BitVec 13) :
    exec (.bge rs1 rs2 offset) s = .next (if !cmpLtSigned (s.readReg rs1) (s.readReg rs2) then s.advancePc.setPc (s.pc + sextB offset) else s.advancePc) :=
  retire_branch ..

theorem exec_bltu (s : State) (rs1 rs2 : RegIdx) (offset : BitVec 13) :
    exec (.bltu rs1 rs2 offset) s = .next (if cmpLtUnsigned (s.readReg rs1) (s.readReg rs2) then s.advancePc.setPc (s.pc + sextB offset) else s.advancePc) :=
  retire_branch ..

theorem exec_bgeu (s : State) (rs1 rs2 : RegIdx) (offset : BitVec 13) :
    exec (.bgeu rs1 rs2 offset) s = .next (if !cmpLtUnsigned (s.readReg rs1) (s.readReg rs2) then s.advancePc.setPc (s.pc + sextB offset) else s.advancePc) :=
  retire_branch ..

theorem exec_lb (s : State) (rd rs1 : RegIdx) (imm : BitVec 12) :
    exec (.lb rd rs1 imm) s = .next (if memAdmit s.verdict .load (s.readReg rs1 + sext12 imm) .byte
      then s.advancePc.writeReg rd (extendValue .sign (s.mem.readLE (s.readReg rs1 + sext12 imm) Width.byte.bytes))
      else s.advancePc.raiseFault (.memoryFault s.pc .load (s.readReg rs1 + sext12 imm) .byte)) :=
  retire_load rfl

theorem exec_lh (s : State) (rd rs1 : RegIdx) (imm : BitVec 12) :
    exec (.lh rd rs1 imm) s = .next (if memAdmit s.verdict .load (s.readReg rs1 + sext12 imm) .half
      then s.advancePc.writeReg rd (extendValue .sign (s.mem.readLE (s.readReg rs1 + sext12 imm) Width.half.bytes))
      else s.advancePc.raiseFault (.memoryFault s.pc .load (s.readReg rs1 + sext12 imm) .half)) :=
  retire_load rfl

theorem exec_lw (s : State) (rd rs1 : RegIdx) (imm : BitVec 12) :
    exec (.lw rd rs1 imm) s = .next (if memAdmit s.verdict .load (s.readReg rs1 + sext12 imm) .word
      then s.advancePc.writeReg rd (extendValue .sign (s.mem.readLE (s.readReg rs1 + sext12 imm) Width.word.bytes))
      else s.advancePc.raiseFault (.memoryFault s.pc .load (s.readReg rs1 + sext12 imm) .word)) :=
  retire_load rfl

theorem exec_ld (s : State) (rd rs1 : RegIdx) (imm : BitVec 12) :
    exec (.ld rd rs1 imm) s = .next (if memAdmit s.verdict .load (s.readReg rs1 + sext12 imm) .double
      then s.advancePc.writeReg rd (extendValue .zero (s.mem.readLE (s.readReg rs1 + sext12 imm) Width.double.bytes))
      else s.advancePc.raiseFault (.memoryFault s.pc .load (s.readReg rs1 + sext12 imm) .double)) :=
  retire_load rfl

theorem exec_lbu (s : State) (rd rs1 : RegIdx) (imm : BitVec 12) :
    exec (.lbu rd rs1 imm) s = .next (if memAdmit s.verdict .load (s.readReg rs1 + sext12 imm) .byte
      then s.advancePc.writeReg rd (extendValue .zero (s.mem.readLE (s.readReg rs1 + sext12 imm) Width.byte.bytes))
      else s.advancePc.raiseFault (.memoryFault s.pc .load (s.readReg rs1 + sext12 imm) .byte)) :=
  retire_load rfl

theorem exec_lhu (s : State) (rd rs1 : RegIdx) (imm : BitVec 12) :
    exec (.lhu rd rs1 imm) s = .next (if memAdmit s.verdict .load (s.readReg rs1 + sext12 imm) .half
      then s.advancePc.writeReg rd (extendValue .zero (s.mem.readLE (s.readReg rs1 + sext12 imm) Width.half.bytes))
      else s.advancePc.raiseFault (.memoryFault s.pc .load (s.readReg rs1 + sext12 imm) .half)) :=
  retire_load rfl

theorem exec_sb (s : State) (rs1 rs2 : RegIdx) (imm : BitVec 12) :
    exec (.sb rs1 rs2 imm) s = .next (if memAdmit s.verdict .store (s.readReg rs1 + sext12 imm) .byte
      then s.advancePc.setMem (s.mem.writeLE (s.readReg rs1 + sext12 imm) Width.byte.bytes ((s.readReg rs2).setWidth (8 * Width.byte.bytes)))
      else s.advancePc.raiseFault (.memoryFault s.pc .store (s.readReg rs1 + sext12 imm) .byte)) :=
  retire_store rfl

theorem exec_sh (s : State) (rs1 rs2 : RegIdx) (imm : BitVec 12) :
    exec (.sh rs1 rs2 imm) s = .next (if memAdmit s.verdict .store (s.readReg rs1 + sext12 imm) .half
      then s.advancePc.setMem (s.mem.writeLE (s.readReg rs1 + sext12 imm) Width.half.bytes ((s.readReg rs2).setWidth (8 * Width.half.bytes)))
      else s.advancePc.raiseFault (.memoryFault s.pc .store (s.readReg rs1 + sext12 imm) .half)) :=
  retire_store rfl

theorem exec_sw (s : State) (rs1 rs2 : RegIdx) (imm : BitVec 12) :
    exec (.sw rs1 rs2 imm) s = .next (if memAdmit s.verdict .store (s.readReg rs1 + sext12 imm) .word
      then s.advancePc.setMem (s.mem.writeLE (s.readReg rs1 + sext12 imm) Width.word.bytes ((s.readReg rs2).setWidth (8 * Width.word.bytes)))
      else s.advancePc.raiseFault (.memoryFault s.pc .store (s.readReg rs1 + sext12 imm) .word)) :=
  retire_store rfl

theorem exec_sd (s : State) (rs1 rs2 : RegIdx) (imm : BitVec 12) :
    exec (.sd rs1 rs2 imm) s = .next (if memAdmit s.verdict .store (s.readReg rs1 + sext12 imm) .double
      then s.advancePc.setMem (s.mem.writeLE (s.readReg rs1 + sext12 imm) Width.double.bytes ((s.readReg rs2).setWidth (8 * Width.double.bytes)))
      else s.advancePc.raiseFault (.memoryFault s.pc .store (s.readReg rs1 + sext12 imm) .double)) :=
  retire_store rfl

theorem exec_ecall (s : State) :
    exec .ecall s = .next (if s.readReg Config.syscallNumReg = Config.exitSyscallNumber
      then s.advancePc.haltExited (s.readReg Config.syscallArgReg)
      else s.advancePc.raiseFault (.unsupportedSyscall s.pc (s.readReg Config.syscallNumReg))) :=
  retire_system (s := s) (d := operandsEcall s .ecall) (u := unitEcall) rfl

end Sys2Proof.Machine
end

