-- ==== Sys2Proof/Laws/Memory.lean ====
section
/-! SUPPORT. The laws of the byte store: read after write, the canonical form and its uniqueness, and multi-byte reads and
writes (20_memory.md R40 to R44). -/

namespace Sys2Proof.Machine

/-! ## One byte -/

theorem Memory.read_above {m : Memory} {a : Nat} (h : ∀ c ∈ m, a < c.1) : m.read a = Config.unlistedByte := by
  induction m with
  | nil => rfl
  | cons c rest ih =>
    have hc : c.1 ≠ a := by have := h c (by simp); omega
    simp only [Memory.read, hc, if_false]
    exact ih fun d hd => h d (by simp [hd])

theorem Memory.wf_tail {c : Host.Cell} {m : Memory} (h : Memory.wf (c :: m)) : m.wf :=
  ⟨(List.pairwise_cons.1 h.1).2, fun d hd => h.2 d (by simp [hd])⟩

theorem Memory.wf_head {c : Host.Cell} {m : Memory} (h : Memory.wf (c :: m)) : ∀ d ∈ m, c.1 < d.1 :=
  (List.pairwise_cons.1 h.1).1

/-- A byte just written reads back (R43). -/
theorem Memory.read_write_same {m : Memory} (h : m.wf) (a : Nat) (v : Byte) : (m.write a v).read a = v := by
  induction m with
  | nil => by_cases hv : v = Config.unlistedByte <;> simp [Memory.write, Memory.read, hv]
  | cons c rest ih =>
    obtain ⟨k, b⟩ := c
    have hk := Memory.wf_head h
    have up : ∀ d ∈ rest, k < d.1 := hk
    unfold Memory.write
    by_cases h1 : a < k
    · by_cases hv : v = Config.unlistedByte
      · simp only [h1, hv, if_true]
        refine Memory.read_above fun d hd => ?_
        rcases List.mem_cons.1 hd with rfl | hd
        · exact h1
        · exact lt_trans h1 (up d hd)
      · simp [h1, hv, Memory.read]
    · by_cases h2 : a = k
      · subst h2
        by_cases hv : v = Config.unlistedByte
        · simp only [h1, hv, if_true, if_false]
          exact Memory.read_above up
        · simp [hv, Memory.read]
      · simp only [h1, h2, if_false, Memory.read, Ne.symm h2]
        exact ih (Memory.wf_tail h)

/-- A write leaves every other address alone (R43). -/
theorem Memory.read_write_ne (m : Memory) {a x : Nat} (v : Byte) (hx : x ≠ a) : (m.write a v).read x = m.read x := by
  induction m with
  | nil => by_cases hv : v = Config.unlistedByte <;> simp [Memory.write, Memory.read, hv, Ne.symm hx]
  | cons c rest ih =>
    obtain ⟨k, b⟩ := c
    unfold Memory.write
    split
    · split
      · rfl
      · simp [Memory.read, Ne.symm hx]
    · split
      · rename_i _ h2
        subst h2
        split <;> simp [Memory.read, Ne.symm hx]
      · simp only [Memory.read, ih]

/-- Every address in a written store is the written one or was listed before. -/
theorem Memory.mem_write {m : Memory} {a : Nat} {v : Byte} {c : Host.Cell} (h : c ∈ m.write a v) :
    (c = (a, v) ∧ v ≠ Config.unlistedByte) ∨ c ∈ m := by
  induction m with
  | nil =>
    unfold Memory.write at h
    split at h
    · simp at h
    · rename_i hv; exact .inl ⟨by simpa using h, hv⟩
  | cons d rest ih =>
    obtain ⟨k, b⟩ := d
    unfold Memory.write at h
    split at h
    · split at h
      · exact .inr h
      · rename_i hv
        rcases List.mem_cons.1 h with rfl | h
        · exact .inl ⟨rfl, hv⟩
        · exact .inr h
    · split at h
      · split at h
        · exact .inr (by simp [h])
        · rename_i hv
          rcases List.mem_cons.1 h with rfl | h
          · exact .inl ⟨rfl, hv⟩
          · exact .inr (by simp [h])
      · rcases List.mem_cons.1 h with rfl | h
        · exact .inr (by simp)
        · rcases ih h with h | h
          · exact .inl h
          · exact .inr (by simp [h])

/-- A write keeps the canonical form. -/
theorem Memory.wf_write {m : Memory} (h : m.wf) {a : Nat} (ha : a < 2 ^ 64) (v : Byte) : (m.write a v).wf := by
  refine ⟨?_, fun c hc => ?_⟩
  · induction m with
    | nil => unfold Memory.write; split <;> simp
    | cons c rest ih =>
      obtain ⟨k, b⟩ := c
      have up := Memory.wf_head h
      have ht := Memory.wf_tail h
      unfold Memory.write
      split
      · rename_i h1
        split
        · exact h.1
        · refine List.pairwise_cons.2 ⟨fun d hd => ?_, h.1⟩
          rcases List.mem_cons.1 hd with rfl | hd
          · exact h1
          · exact lt_trans h1 (up d hd)
      · split
        · rename_i h2
          subst h2
          split
          · exact ht.1
          · exact List.pairwise_cons.2 ⟨up, ht.1⟩
        · rename_i h1 h2
          refine List.pairwise_cons.2 ⟨fun d hd => ?_, ih ht⟩
          rcases Memory.mem_write hd with ⟨rfl, -⟩ | hd
          · exact lt_of_le_of_ne (Nat.le_of_not_lt h1) (Ne.symm h2)
          · exact up d hd
  · rcases Memory.mem_write hc with ⟨rfl, hv⟩ | hc
    · exact ⟨ha, hv⟩
    · exact h.2 c hc

/-- In canonical form a listed cell is what its address reads as. -/
theorem Memory.read_of_mem {m : Memory} (h : m.wf) {c : Host.Cell} (hc : c ∈ m) : m.read c.1 = c.2 := by
  induction m with
  | nil => simp at hc
  | cons d rest ih =>
    obtain ⟨k, b⟩ := d
    rcases List.mem_cons.1 hc with rfl | hc
    · simp [Memory.read]
    · have : k < c.1 := Memory.wf_head h c hc
      have hne : k ≠ c.1 := by omega
      simp only [Memory.read, hne, if_false]
      exact ih (Memory.wf_tail h) hc

/-! ## Multi-byte accesses -/

/-- The byte at offset `i` of a multi-byte read is the byte at the address plus `i` (R42). -/
theorem Memory.readLE_byte (m : Memory) (n : Nat) : ∀ (addr : Word) {i : Nat}, i < n →
    (m.readLE addr n).extractLsb' (8 * i) 8 = m.read (addr + BitVec.ofNat 64 i).toNat := by
  induction n with
  | zero => intro _ i hi; omega
  | succ n ih =>
    intro addr i hi
    rcases i with _ | i
    · simp only [Memory.readLE, Nat.mul_zero, BitVec.add_zero]
      exact BitVec.extractLsb'_append_eq_right
    · have := ih (addr + 1#64) (i := i) (by omega)
      rw [show addr + BitVec.ofNat 64 (i + 1) = addr + 1#64 + BitVec.ofNat 64 i by
        rw [BitVec.add_assoc, ← BitVec.ofNat_add, Nat.add_comm i 1], ← this]
      simp only [Memory.readLE]
      ext j hj
      simp only [BitVec.getElem_extractLsb', BitVec.getLsbD_append]
      rw [if_neg (by omega)]
      congr 1
      omega

/-- A store leaves every byte outside it alone (R43). -/
theorem Memory.read_writeLE_other (n : Nat) : ∀ (m : Memory) (addr : Word) (v : BitVec (8 * n)) {x : Word},
    (∀ i, i < n → x ≠ addr + BitVec.ofNat 64 i) → (m.writeLE addr n v).read x.toNat = m.read x.toNat := by
  induction n with
  | zero => intros; rfl
  | succ n ih =>
    intro m addr v x hx
    simp only [Memory.writeLE]
    rw [ih _ _ _ fun i hi => ?_, Memory.read_write_ne]
    · intro h
      exact hx 0 (by omega) (by simpa using BitVec.eq_of_toNat_eq h)
    · have := hx (i + 1) (by omega)
      rwa [show addr + BitVec.ofNat 64 (i + 1) = addr + 1#64 + BitVec.ofNat 64 i by
        rw [BitVec.add_assoc, ← BitVec.ofNat_add, Nat.add_comm i 1]] at this

/-- A store keeps the canonical form. -/
theorem Memory.wf_writeLE (n : Nat) : ∀ {m : Memory} (_ : m.wf) (addr : Word) (v : BitVec (8 * n)),
    (m.writeLE addr n v).wf := by
  induction n with
  | zero => intro m h _ _; exact h
  | succ n ih => intro m h addr v; exact ih (Memory.wf_write h addr.isLt _) _ _

/-- A store of at most 2^64 bytes puts byte `i` of the value at the address plus `i` (R43). -/
theorem Memory.read_writeLE_stored (n : Nat) : ∀ {m : Memory} (_ : m.wf) (addr : Word) (v : BitVec (8 * n)) {i : Nat},
    n ≤ 2 ^ 64 → i < n →
    (m.writeLE addr n v).read (addr + BitVec.ofNat 64 i).toNat = v.extractLsb' (8 * i) 8 := by
  induction n with
  | zero => intro _ _ _ _ i _ hi; omega
  | succ n ih =>
    intro m h addr v i hn hi
    simp only [Memory.writeLE]
    rcases i with _ | i
    · rw [Memory.read_writeLE_other]
      · simpa using Memory.read_write_same h addr.toNat (v.extractLsb' 0 8)
      · intro i hi heq
        have h1 := congrArg BitVec.toNat heq
        simp only [BitVec.add_zero, BitVec.toNat_add, BitVec.toNat_ofNat] at h1
        omega
    · rw [show addr + BitVec.ofNat 64 (i + 1) = addr + 1#64 + BitVec.ofNat 64 i by
        rw [BitVec.add_assoc, ← BitVec.ofNat_add, Nat.add_comm i 1]]
      rw [ih (Memory.wf_write h addr.isLt _) _ _ (by omega) (by omega)]
      ext j hj
      simp only [BitVec.getElem_extractLsb', BitVec.getLsbD_extractLsb']
      rw [show 8 * (i + 1) + j = 8 + (8 * i + j) by omega, decide_eq_true (by omega), Bool.true_and]

/-- Reading what was just stored gives the stored value (R42, R43). -/
theorem Memory.readLE_writeLE_same {m : Memory} (h : m.wf) (addr : Word) (n : Nat) (hn : n ≤ 2 ^ 64)
    (v : BitVec (8 * n)) : (m.writeLE addr n v).readLE addr n = v := by
  ext j hj
  have hi : j / 8 < n := by omega
  have h1 := Memory.readLE_byte (m.writeLE addr n v) n addr hi
  rw [Memory.read_writeLE_stored n h addr v hn hi] at h1
  have h2 := congrArg (fun b : Byte => b.getLsbD (j % 8)) h1
  simp only [BitVec.getLsbD_extractLsb', show j % 8 < 8 by omega, decide_true, Bool.true_and,
    show 8 * (j / 8) + j % 8 = j by omega] at h2
  simpa [BitVec.getLsbD_eq_getElem, hj] using h2

end Sys2Proof.Machine
end

