-- ==== Sys2Proof/Laws/Frames.lean ====
section
/-! SUPPORT. The frames of Safety.lean for the shapes `retire` answers in. -/

namespace Sys2Proof.Machine

/-- Writing a register after the pc advance has the frame WroteReg (R100). -/
theorem wroteReg_writeReg (s : State) (rd : RegIdx) (v : Word) :
    WroteReg s (s.advancePc.writeReg rd v) rd v (s.pc + 4#64) where
  dest := writeReg_readReg_same ..
  otherRegs _ h := by rw [writeReg_readReg_ne _ _ h, advancePc_readReg]
  pc := by simp
  memory _ := by simp
  status := by simp
  verdict := by simp

/-- Writing a link register and jumping has the frame WroteReg (R130, R131). -/
theorem wroteReg_jump (s : State) (rd : RegIdx) (v target : Word) :
    WroteReg s ((s.advancePc.writeReg rd v).setPc target) rd v target where
  dest := by rw [setPc_readReg, writeReg_readReg_same]
  otherRegs _ h := by rw [setPc_readReg, writeReg_readReg_ne _ _ h, advancePc_readReg]
  pc := by simp
  memory _ := by simp
  status := by simp
  verdict := by simp

/-- A control transfer without a link changes the pc only (R132). -/
theorem movedTo_setPc (s : State) (target : Word) : MovedTo s (s.advancePc.setPc target) target s.status :=
  ⟨fun _ => rfl, rfl, fun _ => rfl, rfl, rfl⟩

/-- The pc advance changes the pc only (R91). -/
theorem movedTo_advancePc (s : State) : MovedTo s s.advancePc (s.pc + 4#64) s.status :=
  ⟨fun _ => rfl, rfl, fun _ => rfl, rfl, rfl⟩

/-- A fault raised after the pc advance changes pc and status only (R162). -/
theorem movedTo_raiseFault (s : State) (f : FaultRecord) :
    MovedTo s (s.advancePc.raiseFault f) (s.pc + 4#64) (.faulted f) :=
  ⟨fun _ => rfl, rfl, fun _ => rfl, rfl, rfl⟩

/-- Exit changes pc and status only (R95). -/
theorem movedTo_haltExited (s : State) (c : Word) : MovedTo s (s.advancePc.haltExited c) (s.pc + 4#64) (.exited c) :=
  ⟨fun _ => rfl, rfl, fun _ => rfl, rfl, rfl⟩

/-- An admitted store has the frame StoredAt (R43, R147). -/
theorem storedAt_writeLE {s : State} (h : s.mem.wf) (ea : Word) (n : Width) (v : Word) :
    StoredAt s (s.advancePc.setMem (s.mem.writeLE ea n.bytes (v.setWidth (8 * n.bytes)))) ea n.bytes v
      (s.pc + 4#64) where
  stored i hi := by
    have hn : n.bytes ≤ 2 ^ 64 := by cases n <;> decide
    rw [setMem_byteAt, Memory.read_writeLE_stored _ h _ _ hn hi]
    ext j hj
    simp only [BitVec.getElem_extractLsb', BitVec.getLsbD_setWidth]
    rw [decide_eq_true (by omega), Bool.true_and]
  otherBytes addr h' := by
    rw [setMem_byteAt, Memory.read_writeLE_other _ _ _ _ h']
    rfl
  regs _ := rfl
  pc := rfl
  status := rfl
  verdict := rfl

/-- The invariant only looks at the register file's slot 0, the store and the pc's bit 0. -/
theorem Inv.mk' {s : State} (h0 : s.regs[0] = 0#64) (hm : s.mem.wf) (hp : s.pc.getLsbD 0 = false) : Inv s :=
  ⟨h0, hm, hp⟩

/-- An even pc stays even when it advances (R28). -/
theorem even_add {a b : Word} (ha : a.getLsbD 0 = false) (hb : b.getLsbD 0 = false) : (a + b).getLsbD 0 = false := by
  simp only [BitVec.getLsbD, Nat.testBit_zero, BitVec.toNat_add, decide_eq_false_iff_not] at *
  omega

end Sys2Proof.Machine
end

