-- ==== Sys2Proof/Laws/PerInstr.lean ====
section
/-! SUPPORT. Statements about every instruction, one lemma per constructor of Instr. EncodedRow: the word the encoder
writes has, under its row's mask, the bits its row of spec/opcode_table.json fixes. -/

namespace Sys2Proof.Laws

/-- The encoded word belongs to its variant's row of the opcode table. -/
def EncodedRow.Statement (i : Instr) : Prop := encode i &&& i.variant.maskBits = i.variant.matchBits

theorem EncodedRow.lui (rd : RegIdx) (imm20 : BitVec 20) : EncodedRow.Statement (.lui rd imm20) := by
  show uType imm20 rd Family.lui.opcode &&& 0x0000007F#32 = _
  rw [and_mask_opcode, uType_opcode]
  rfl

theorem EncodedRow.auipc (rd : RegIdx) (imm20 : BitVec 20) : EncodedRow.Statement (.auipc rd imm20) := by
  show uType imm20 rd Family.auipc.opcode &&& 0x0000007F#32 = _
  rw [and_mask_opcode, uType_opcode]
  rfl

theorem EncodedRow.jal (rd : RegIdx) (offset : BitVec 21) : EncodedRow.Statement (.jal rd offset) := by
  show jType offset rd Family.jal.opcode &&& 0x0000007F#32 = _
  rw [and_mask_opcode, jType_opcode]
  rfl

theorem EncodedRow.jalr (rd rs1 : RegIdx) (imm : BitVec 12) : EncodedRow.Statement (.jalr rd rs1 imm) := by
  show iType imm rs1 0b000#3 rd Family.jalr.opcode &&& 0x0000707F#32 = _
  rw [and_mask_funct3, iType_opcode, iType_funct3]
  rfl

theorem EncodedRow.beq (rs1 rs2 : RegIdx) (offset : BitVec 13) : EncodedRow.Statement (.beq rs1 rs2 offset) := by
  show bType offset rs2 rs1 0b000#3 Family.branch.opcode &&& 0x0000707F#32 = _
  rw [and_mask_funct3, bType_opcode, bType_funct3]
  rfl

theorem EncodedRow.bne (rs1 rs2 : RegIdx) (offset : BitVec 13) : EncodedRow.Statement (.bne rs1 rs2 offset) := by
  show bType offset rs2 rs1 0b001#3 Family.branch.opcode &&& 0x0000707F#32 = _
  rw [and_mask_funct3, bType_opcode, bType_funct3]
  rfl

theorem EncodedRow.blt (rs1 rs2 : RegIdx) (offset : BitVec 13) : EncodedRow.Statement (.blt rs1 rs2 offset) := by
  show bType offset rs2 rs1 0b100#3 Family.branch.opcode &&& 0x0000707F#32 = _
  rw [and_mask_funct3, bType_opcode, bType_funct3]
  rfl

theorem EncodedRow.bge (rs1 rs2 : RegIdx) (offset : BitVec 13) : EncodedRow.Statement (.bge rs1 rs2 offset) := by
  show bType offset rs2 rs1 0b101#3 Family.branch.opcode &&& 0x0000707F#32 = _
  rw [and_mask_funct3, bType_opcode, bType_funct3]
  rfl

theorem EncodedRow.bltu (rs1 rs2 : RegIdx) (offset : BitVec 13) : EncodedRow.Statement (.bltu rs1 rs2 offset) := by
  show bType offset rs2 rs1 0b110#3 Family.branch.opcode &&& 0x0000707F#32 = _
  rw [and_mask_funct3, bType_opcode, bType_funct3]
  rfl

theorem EncodedRow.bgeu (rs1 rs2 : RegIdx) (offset : BitVec 13) : EncodedRow.Statement (.bgeu rs1 rs2 offset) := by
  show bType offset rs2 rs1 0b111#3 Family.branch.opcode &&& 0x0000707F#32 = _
  rw [and_mask_funct3, bType_opcode, bType_funct3]
  rfl

theorem EncodedRow.lb (rd rs1 : RegIdx) (imm : BitVec 12) : EncodedRow.Statement (.lb rd rs1 imm) := by
  show iType imm rs1 0b000#3 rd Family.load.opcode &&& 0x0000707F#32 = _
  rw [and_mask_funct3, iType_opcode, iType_funct3]
  rfl

theorem EncodedRow.lh (rd rs1 : RegIdx) (imm : BitVec 12) : EncodedRow.Statement (.lh rd rs1 imm) := by
  show iType imm rs1 0b001#3 rd Family.load.opcode &&& 0x0000707F#32 = _
  rw [and_mask_funct3, iType_opcode, iType_funct3]
  rfl

theorem EncodedRow.lw (rd rs1 : RegIdx) (imm : BitVec 12) : EncodedRow.Statement (.lw rd rs1 imm) := by
  show iType imm rs1 0b010#3 rd Family.load.opcode &&& 0x0000707F#32 = _
  rw [and_mask_funct3, iType_opcode, iType_funct3]
  rfl

theorem EncodedRow.ld (rd rs1 : RegIdx) (imm : BitVec 12) : EncodedRow.Statement (.ld rd rs1 imm) := by
  show iType imm rs1 0b011#3 rd Family.load.opcode &&& 0x0000707F#32 = _
  rw [and_mask_funct3, iType_opcode, iType_funct3]
  rfl

theorem EncodedRow.lbu (rd rs1 : RegIdx) (imm : BitVec 12) : EncodedRow.Statement (.lbu rd rs1 imm) := by
  show iType imm rs1 0b100#3 rd Family.load.opcode &&& 0x0000707F#32 = _
  rw [and_mask_funct3, iType_opcode, iType_funct3]
  rfl

theorem EncodedRow.lhu (rd rs1 : RegIdx) (imm : BitVec 12) : EncodedRow.Statement (.lhu rd rs1 imm) := by
  show iType imm rs1 0b101#3 rd Family.load.opcode &&& 0x0000707F#32 = _
  rw [and_mask_funct3, iType_opcode, iType_funct3]
  rfl

theorem EncodedRow.sb (rs1 rs2 : RegIdx) (imm : BitVec 12) : EncodedRow.Statement (.sb rs1 rs2 imm) := by
  show sType imm rs2 rs1 0b000#3 Family.store.opcode &&& 0x0000707F#32 = _
  rw [and_mask_funct3, sType_opcode, sType_funct3]
  rfl

theorem EncodedRow.sh (rs1 rs2 : RegIdx) (imm : BitVec 12) : EncodedRow.Statement (.sh rs1 rs2 imm) := by
  show sType imm rs2 rs1 0b001#3 Family.store.opcode &&& 0x0000707F#32 = _
  rw [and_mask_funct3, sType_opcode, sType_funct3]
  rfl

theorem EncodedRow.sw (rs1 rs2 : RegIdx) (imm : BitVec 12) : EncodedRow.Statement (.sw rs1 rs2 imm) := by
  show sType imm rs2 rs1 0b010#3 Family.store.opcode &&& 0x0000707F#32 = _
  rw [and_mask_funct3, sType_opcode, sType_funct3]
  rfl

theorem EncodedRow.sd (rs1 rs2 : RegIdx) (imm : BitVec 12) : EncodedRow.Statement (.sd rs1 rs2 imm) := by
  show sType imm rs2 rs1 0b011#3 Family.store.opcode &&& 0x0000707F#32 = _
  rw [and_mask_funct3, sType_opcode, sType_funct3]
  rfl

theorem EncodedRow.addi (rd rs1 : RegIdx) (imm : BitVec 12) : EncodedRow.Statement (.addi rd rs1 imm) := by
  show iType imm rs1 0b000#3 rd Family.opImm.opcode &&& 0x0000707F#32 = _
  rw [and_mask_funct3, iType_opcode, iType_funct3]
  rfl

theorem EncodedRow.slti (rd rs1 : RegIdx) (imm : BitVec 12) : EncodedRow.Statement (.slti rd rs1 imm) := by
  show iType imm rs1 0b010#3 rd Family.opImm.opcode &&& 0x0000707F#32 = _
  rw [and_mask_funct3, iType_opcode, iType_funct3]
  rfl

theorem EncodedRow.sltiu (rd rs1 : RegIdx) (imm : BitVec 12) : EncodedRow.Statement (.sltiu rd rs1 imm) := by
  show iType imm rs1 0b011#3 rd Family.opImm.opcode &&& 0x0000707F#32 = _
  rw [and_mask_funct3, iType_opcode, iType_funct3]
  rfl

theorem EncodedRow.xori (rd rs1 : RegIdx) (imm : BitVec 12) : EncodedRow.Statement (.xori rd rs1 imm) := by
  show iType imm rs1 0b100#3 rd Family.opImm.opcode &&& 0x0000707F#32 = _
  rw [and_mask_funct3, iType_opcode, iType_funct3]
  rfl

theorem EncodedRow.ori (rd rs1 : RegIdx) (imm : BitVec 12) : EncodedRow.Statement (.ori rd rs1 imm) := by
  show iType imm rs1 0b110#3 rd Family.opImm.opcode &&& 0x0000707F#32 = _
  rw [and_mask_funct3, iType_opcode, iType_funct3]
  rfl

theorem EncodedRow.andi (rd rs1 : RegIdx) (imm : BitVec 12) : EncodedRow.Statement (.andi rd rs1 imm) := by
  show iType imm rs1 0b111#3 rd Family.opImm.opcode &&& 0x0000707F#32 = _
  rw [and_mask_funct3, iType_opcode, iType_funct3]
  rfl

theorem EncodedRow.slli (rd rs1 : RegIdx) (shamt : BitVec 6) : EncodedRow.Statement (.slli rd rs1 shamt) := by
  show shiftType 0b000000#6 shamt rs1 0b001#3 rd Family.opImm.opcode &&& 0xFC00707F#32 = _
  rw [and_mask_funct6, shiftType_opcode, shiftType_funct3, shiftType_funct6]
  rfl

theorem EncodedRow.srli (rd rs1 : RegIdx) (shamt : BitVec 6) : EncodedRow.Statement (.srli rd rs1 shamt) := by
  show shiftType 0b000000#6 shamt rs1 0b101#3 rd Family.opImm.opcode &&& 0xFC00707F#32 = _
  rw [and_mask_funct6, shiftType_opcode, shiftType_funct3, shiftType_funct6]
  rfl

theorem EncodedRow.srai (rd rs1 : RegIdx) (shamt : BitVec 6) : EncodedRow.Statement (.srai rd rs1 shamt) := by
  show shiftType 0b010000#6 shamt rs1 0b101#3 rd Family.opImm.opcode &&& 0xFC00707F#32 = _
  rw [and_mask_funct6, shiftType_opcode, shiftType_funct3, shiftType_funct6]
  rfl

theorem EncodedRow.add (rd rs1 rs2 : RegIdx) : EncodedRow.Statement (.add rd rs1 rs2) := by
  show rType 0b0000000#7 rs2 rs1 0b000#3 rd Family.op.opcode &&& 0xFE00707F#32 = _
  rw [and_mask_funct7, rType_opcode, rType_funct3, rType_funct7]
  rfl

theorem EncodedRow.sub (rd rs1 rs2 : RegIdx) : EncodedRow.Statement (.sub rd rs1 rs2) := by
  show rType 0b0100000#7 rs2 rs1 0b000#3 rd Family.op.opcode &&& 0xFE00707F#32 = _
  rw [and_mask_funct7, rType_opcode, rType_funct3, rType_funct7]
  rfl

theorem EncodedRow.sll (rd rs1 rs2 : RegIdx) : EncodedRow.Statement (.sll rd rs1 rs2) := by
  show rType 0b0000000#7 rs2 rs1 0b001#3 rd Family.op.opcode &&& 0xFE00707F#32 = _
  rw [and_mask_funct7, rType_opcode, rType_funct3, rType_funct7]
  rfl

theorem EncodedRow.slt (rd rs1 rs2 : RegIdx) : EncodedRow.Statement (.slt rd rs1 rs2) := by
  show rType 0b0000000#7 rs2 rs1 0b010#3 rd Family.op.opcode &&& 0xFE00707F#32 = _
  rw [and_mask_funct7, rType_opcode, rType_funct3, rType_funct7]
  rfl

theorem EncodedRow.sltu (rd rs1 rs2 : RegIdx) : EncodedRow.Statement (.sltu rd rs1 rs2) := by
  show rType 0b0000000#7 rs2 rs1 0b011#3 rd Family.op.opcode &&& 0xFE00707F#32 = _
  rw [and_mask_funct7, rType_opcode, rType_funct3, rType_funct7]
  rfl

theorem EncodedRow.xor (rd rs1 rs2 : RegIdx) : EncodedRow.Statement (.xor rd rs1 rs2) := by
  show rType 0b0000000#7 rs2 rs1 0b100#3 rd Family.op.opcode &&& 0xFE00707F#32 = _
  rw [and_mask_funct7, rType_opcode, rType_funct3, rType_funct7]
  rfl

theorem EncodedRow.srl (rd rs1 rs2 : RegIdx) : EncodedRow.Statement (.srl rd rs1 rs2) := by
  show rType 0b0000000#7 rs2 rs1 0b101#3 rd Family.op.opcode &&& 0xFE00707F#32 = _
  rw [and_mask_funct7, rType_opcode, rType_funct3, rType_funct7]
  rfl

theorem EncodedRow.sra (rd rs1 rs2 : RegIdx) : EncodedRow.Statement (.sra rd rs1 rs2) := by
  show rType 0b0100000#7 rs2 rs1 0b101#3 rd Family.op.opcode &&& 0xFE00707F#32 = _
  rw [and_mask_funct7, rType_opcode, rType_funct3, rType_funct7]
  rfl

theorem EncodedRow.or (rd rs1 rs2 : RegIdx) : EncodedRow.Statement (.or rd rs1 rs2) := by
  show rType 0b0000000#7 rs2 rs1 0b110#3 rd Family.op.opcode &&& 0xFE00707F#32 = _
  rw [and_mask_funct7, rType_opcode, rType_funct3, rType_funct7]
  rfl

theorem EncodedRow.and (rd rs1 rs2 : RegIdx) : EncodedRow.Statement (.and rd rs1 rs2) := by
  show rType 0b0000000#7 rs2 rs1 0b111#3 rd Family.op.opcode &&& 0xFE00707F#32 = _
  rw [and_mask_funct7, rType_opcode, rType_funct3, rType_funct7]
  rfl

theorem EncodedRow.ecall : EncodedRow.Statement .ecall := rfl

theorem EncodedRow.addiw (rd rs1 : RegIdx) (imm : BitVec 12) : EncodedRow.Statement (.addiw rd rs1 imm) := by
  show iType imm rs1 0b000#3 rd Family.opImm32.opcode &&& 0x0000707F#32 = _
  rw [and_mask_funct3, iType_opcode, iType_funct3]
  rfl

theorem EncodedRow.mul (rd rs1 rs2 : RegIdx) : EncodedRow.Statement (.mul rd rs1 rs2) := by
  show rType 0b0000001#7 rs2 rs1 0b000#3 rd Family.op.opcode &&& 0xFE00707F#32 = _
  rw [and_mask_funct7, rType_opcode, rType_funct3, rType_funct7]
  rfl

theorem EncodedRow.mulh (rd rs1 rs2 : RegIdx) : EncodedRow.Statement (.mulh rd rs1 rs2) := by
  show rType 0b0000001#7 rs2 rs1 0b001#3 rd Family.op.opcode &&& 0xFE00707F#32 = _
  rw [and_mask_funct7, rType_opcode, rType_funct3, rType_funct7]
  rfl

theorem EncodedRow.div (rd rs1 rs2 : RegIdx) : EncodedRow.Statement (.div rd rs1 rs2) := by
  show rType 0b0000001#7 rs2 rs1 0b100#3 rd Family.op.opcode &&& 0xFE00707F#32 = _
  rw [and_mask_funct7, rType_opcode, rType_funct3, rType_funct7]
  rfl

theorem EncodedRow.rem (rd rs1 rs2 : RegIdx) : EncodedRow.Statement (.rem rd rs1 rs2) := by
  show rType 0b0000001#7 rs2 rs1 0b110#3 rd Family.op.opcode &&& 0xFE00707F#32 = _
  rw [and_mask_funct7, rType_opcode, rType_funct3, rType_funct7]
  rfl

end Sys2Proof.Laws
end

