-- ==== Sys2Proof/Laws/Shapes.lean ====
section
/-! SUPPORT. Everything an instruction can do to the state in which it was fetched, said once (40_datapath.md R98): the
inversion lemma that statements about every instruction cite in place of unfolding `exec`. -/

namespace Sys2Proof.Machine

/-- The states an instruction can leave (R93 to R97), with what each case says of the instruction and of the state. -/
inductive ExecShape (i : Instr) (s : State) : State → Prop where
  /-- A result is written and the pc advances. -/
  | wrote (rd : RegIdx) (v : Word) (dest : destOf i = some rd) : ExecShape i s (s.advancePc.writeReg rd v)
  /-- JAL, JALR: the link is written and the pc is the target, which is even where the instruction's own address is. -/
  | linked (rd : RegIdx) (target : Word) (dest : destOf i = some rd)
      (even : i.wellFormed = true → s.pc.getLsbD 0 = false → target.getLsbD 0 = false) :
      ExecShape i s ((s.advancePc.writeReg rd (s.pc + 4#64)).setPc target)
  /-- A taken branch. -/
  | branched (target : Word) (dest : destOf i = none)
      (even : i.wellFormed = true → s.pc.getLsbD 0 = false → target.getLsbD 0 = false) :
      ExecShape i s (s.advancePc.setPc target)
  /-- A branch not taken. -/
  | passed (dest : destOf i = none) : ExecShape i s s.advancePc
  /-- An admitted store. -/
  | stored (ea : Word) (n : Width) (v : BitVec (8 * n.bytes)) (dest : destOf i = none) (storesTo : storeTo i s = some (ea, n))
      (admitted : memAdmit s.verdict .store ea n = true) : ExecShape i s (s.advancePc.setMem (s.mem.writeLE ea n.bytes v))
  /-- A data access the port refused. -/
  | refused (kind : AccessKind) (ea : Word) (n : Width) (data : kind ≠ .fetch)
      (denied : memAdmit s.verdict kind ea n = false) :
      ExecShape i s (s.advancePc.raiseFault (.memoryFault s.pc kind ea n))
  /-- A system call that is not the exit call. -/
  | unsupported (is : i = .ecall) (other : s.readReg Config.syscallNumReg ≠ Config.exitSyscallNumber) :
      ExecShape i s (s.advancePc.raiseFault (.unsupportedSyscall s.pc (s.readReg Config.syscallNumReg)))
  /-- The exit system call. -/
  | exited (is : i = .ecall) (exit : s.readReg Config.syscallNumReg = Config.exitSyscallNumber) :
      ExecShape i s (s.advancePc.haltExited (s.readReg Config.syscallArgReg))

/-- Sign extension keeps bit 0, so an even offset is an even operand (R68, R70). -/
theorem even_signExtend {n : Nat} (hn : 1 ≤ n) {x : BitVec n} (h : evenOffset x = true) :
    (x.signExtend 64).getLsbD 0 = false := by
  rw [evenOffset, Bool.not_eq_true'] at h
  rw [BitVec.getLsbD_signExtend]
  simp only [h]
  simp
  omega

/-- A branch's two cases (R132). -/
theorem branch_shape {i : Instr} {s : State} {offset : BitVec 13} (dest : destOf i = none)
    (wf : i.wellFormed = evenOffset offset) (c : Bool) :
    ExecShape i s (if c then s.advancePc.setPc (s.pc + sextB offset) else s.advancePc) := by
  cases c
  · exact .passed dest
  · exact .branched _ dest fun h hp => even_add hp (even_signExtend (by omega) (wf ▸ h))

/-- A load's two cases (R140). -/
theorem load_shape {i : Instr} {s : State} {rd : RegIdx} {v ea : Word} {n : Width} (dest : destOf i = some rd) :
    ExecShape i s (if memAdmit s.verdict .load ea n then s.advancePc.writeReg rd v
      else s.advancePc.raiseFault (.memoryFault s.pc .load ea n)) := by
  split
  · exact .wrote _ _ dest
  · exact .refused _ _ _ (by decide) (Bool.not_eq_true _ ▸ ‹¬_›)

/-- A store's two cases (R147). -/
theorem store_shape {i : Instr} {s : State} {ea : Word} {n : Width} {v : BitVec (8 * n.bytes)} (dest : destOf i = none)
    (storesTo : storeTo i s = some (ea, n)) :
    ExecShape i s (if memAdmit s.verdict .store ea n then s.advancePc.setMem (s.mem.writeLE ea n.bytes v)
      else s.advancePc.raiseFault (.memoryFault s.pc .store ea n)) := by
  split
  · exact .stored _ _ _ dest storesTo ‹_›
  · exact .refused _ _ _ (by decide) (Bool.not_eq_true _ ▸ ‹¬_›)

/-- Every instruction answers a next state of one of these shapes. -/
theorem exec_shape (i : Instr) (s : State) : ∃ t, exec i s = .next t ∧ ExecShape i s t := by
  cases i
  case add => exact ⟨_, exec_add .., .wrote _ _ rfl⟩
  case sub => exact ⟨_, exec_sub .., .wrote _ _ rfl⟩
  case sll => exact ⟨_, exec_sll .., .wrote _ _ rfl⟩
  case slt => exact ⟨_, exec_slt .., .wrote _ _ rfl⟩
  case sltu => exact ⟨_, exec_sltu .., .wrote _ _ rfl⟩
  case xor => exact ⟨_, exec_xor .., .wrote _ _ rfl⟩
  case srl => exact ⟨_, exec_srl .., .wrote _ _ rfl⟩
  case sra => exact ⟨_, exec_sra .., .wrote _ _ rfl⟩
  case or => exact ⟨_, exec_or .., .wrote _ _ rfl⟩
  case and => exact ⟨_, exec_and .., .wrote _ _ rfl⟩
  case mul => exact ⟨_, exec_mul .., .wrote _ _ rfl⟩
  case mulh => exact ⟨_, exec_mulh .., .wrote _ _ rfl⟩
  case div => exact ⟨_, exec_div .., .wrote _ _ rfl⟩
  case rem => exact ⟨_, exec_rem .., .wrote _ _ rfl⟩
  case addi => exact ⟨_, exec_addi .., .wrote _ _ rfl⟩
  case addiw => exact ⟨_, exec_addiw .., .wrote _ _ rfl⟩
  case slti => exact ⟨_, exec_slti .., .wrote _ _ rfl⟩
  case sltiu => exact ⟨_, exec_sltiu .., .wrote _ _ rfl⟩
  case xori => exact ⟨_, exec_xori .., .wrote _ _ rfl⟩
  case ori => exact ⟨_, exec_ori .., .wrote _ _ rfl⟩
  case andi => exact ⟨_, exec_andi .., .wrote _ _ rfl⟩
  case slli => exact ⟨_, exec_slli .., .wrote _ _ rfl⟩
  case srli => exact ⟨_, exec_srli .., .wrote _ _ rfl⟩
  case srai => exact ⟨_, exec_srai .., .wrote _ _ rfl⟩
  case lui => exact ⟨_, exec_lui .., .wrote _ _ rfl⟩
  case auipc => exact ⟨_, exec_auipc .., .wrote _ _ rfl⟩
  case jal rd offset =>
    exact ⟨_, exec_jal .., .linked _ _ rfl fun h hp => even_add hp (even_signExtend (by omega) h)⟩
  case jalr =>
    refine ⟨_, exec_jalr .., .linked _ _ rfl fun _ _ => ?_⟩
    rw [BitVec.getLsbD_and, show (~~~1#64).getLsbD 0 = false from rfl, Bool.and_false]
  case beq => exact ⟨_, exec_beq .., branch_shape rfl rfl _⟩
  case bne => exact ⟨_, exec_bne .., branch_shape rfl rfl _⟩
  case blt => exact ⟨_, exec_blt .., branch_shape rfl rfl _⟩
  case bge => exact ⟨_, exec_bge .., branch_shape rfl rfl _⟩
  case bltu => exact ⟨_, exec_bltu .., branch_shape rfl rfl _⟩
  case bgeu => exact ⟨_, exec_bgeu .., branch_shape rfl rfl _⟩
  case lb => exact ⟨_, exec_lb .., load_shape rfl⟩
  case lh => exact ⟨_, exec_lh .., load_shape rfl⟩
  case lw => exact ⟨_, exec_lw .., load_shape rfl⟩
  case ld => exact ⟨_, exec_ld .., load_shape rfl⟩
  case lbu => exact ⟨_, exec_lbu .., load_shape rfl⟩
  case lhu => exact ⟨_, exec_lhu .., load_shape rfl⟩
  case sb => exact ⟨_, exec_sb .., store_shape rfl rfl⟩
  case sh => exact ⟨_, exec_sh .., store_shape rfl rfl⟩
  case sw => exact ⟨_, exec_sw .., store_shape rfl rfl⟩
  case sd => exact ⟨_, exec_sd .., store_shape rfl rfl⟩
  case ecall =>
    refine ⟨_, exec_ecall .., ?_⟩
    split
    · exact .exited rfl ‹_›
    · exact .unsupported rfl ‹_›

/-- The shape of the next state, when it is known. -/
theorem shape_of_exec {i : Instr} {s t : State} (h : exec i s = .next t) : ExecShape i s t := by
  obtain ⟨u, hu, shape⟩ := exec_shape i s
  rw [hu] at h
  injection h with h
  exact h ▸ shape

end Sys2Proof.Machine
end

