-- ==== Sys2Proof/Laws/Step.lean ====
section
/-! SUPPORT. What a step answers: the front end's cases and the step's (40_datapath.md R90 to R92, R98). -/

namespace Sys2Proof.Machine

/-- A one-byte read is the byte (R42). -/
theorem Memory.readLE_one (m : Memory) (a : Word) : (m.readLE a 1 : BitVec 8) = m.read a.toNat := by
  have h := BitVec.extractLsb'_append_eq_right (a := 0#0) (b := m.read a.toNat)
  ext i hi
  have := congrArg (fun b : BitVec 8 => b.getLsbD i) h
  simpa [Memory.readLE, BitVec.getLsbD_append, hi] using this

/-- Fetch reads the four bytes at the pc, the lowest address lowest (R41). -/
theorem memFetch_eq (s : State) : memFetch s =
    if memAdmit s.verdict .fetch s.pc .word then .ok (wordAt s s.pc) else .error (.memoryFault s.pc .fetch s.pc .word) := by
  have : (s.mem.readLE s.pc 4 : InstrWord) = wordAt s s.pc := by
    rw [show (s.mem.readLE s.pc 4 : InstrWord) = (s.mem.readLE (s.pc + 1#64 + 1#64 + 1#64) 1 ++
      s.mem.read (s.pc + 1#64 + 1#64).toNat ++ s.mem.read (s.pc + 1#64).toNat ++ s.mem.read s.pc.toNat) from rfl,
      Memory.readLE_one]
    simp only [wordAt, State.byteAt]
    rw [show s.pc + 1#64 + 1#64 = s.pc + 2#64 by rw [BitVec.add_assoc]; rfl,
      show s.pc + 2#64 + 1#64 = s.pc + 3#64 by rw [BitVec.add_assoc]; rfl]
  unfold memFetch
  rw [this]

/-- A step from Running is the front end followed by the instruction (R98). -/
theorem step_running {s : State} (h : s.status = .running) :
    step s = match frontEnd s with
      | .ok i => exec i s
      | .error ended => .next ended := by
  unfold step; rw [h] <;> rfl

/-- From a terminal status there is no step (R34). -/
theorem step_terminal {s : State} (h : s.status ≠ .running) : step s = .fault .notRunning := by
  unfold step
  cases hs : s.status with
  | running => exact absurd hs h
  | exited _ => rfl
  | faulted _ => rfl

/-- Everything the front end can answer, in stage order (R90 to R92, R163). -/
theorem frontEnd_eq (s : State) : frontEnd s =
    if s.pc.getLsbD 0 then .error (s.raiseFault (.misalignedProgramCounter s.pc))
    else if memAdmit s.verdict .fetch s.pc .word then
      match decode (wordAt s s.pc) with
      | .ok i => .ok i
      | .error e => .error ((if isFourByte (wordAt s s.pc) then s.advancePc else s).raiseFault
          (decodeFault s.pc (wordAt s s.pc) e))
    else .error (s.raiseFault (.memoryFault s.pc .fetch s.pc .word)) := by
  unfold frontEnd fetchStage
  by_cases hp : s.pc.getLsbD 0
  · rw [if_pos hp, if_pos hp]
  rw [if_neg hp, if_neg hp, memFetch_eq]
  by_cases ha : memAdmit s.verdict .fetch s.pc .word
  · rw [if_pos ha, if_pos ha]
    cases hd : decode (wordAt s s.pc) with
    | ok i => simp only [hd]
    | error e =>
      simp only [hd, afterFetch]
      by_cases h4 : isFourByte (wordAt s s.pc) <;> simp [h4]
  · rw [if_neg ha, if_neg ha]

/-- A decoded instruction runs: step is exec, which itself makes Fetch's pc advance (R98, log 12). -/
theorem frontEnd_ok {s : State} {i : Instr} (h : frontEnd s = .ok i) :
    s.pc.getLsbD 0 = false ∧ memAdmit s.verdict .fetch s.pc .word = true ∧ decode (wordAt s s.pc) = .ok i := by
  rw [frontEnd_eq] at h
  by_cases hp : s.pc.getLsbD 0
  · rw [if_pos hp] at h; cases h
  rw [if_neg hp] at h
  by_cases ha : memAdmit s.verdict .fetch s.pc .word
  · rw [if_pos ha] at h
    refine ⟨by simpa using hp, ha, ?_⟩
    cases hd : decode (wordAt s s.pc) with
    | ok j => rw [hd] at h; injection h with h; rw [h]
    | error e => rw [hd] at h; cases h
  · rw [if_neg ha] at h; cases h

/-- What a faulting front end leaves: registers, memory and verdict unchanged, the pc at `a` or past the word (R162). -/
theorem frontEnd_error {s t : State} (h : frontEnd s = .error t) :
    ∃ f, (t = s.raiseFault f ∨ t = s.advancePc.raiseFault f) := by
  rw [frontEnd_eq] at h
  by_cases hp : s.pc.getLsbD 0
  · rw [if_pos hp] at h; injection h with h; exact ⟨_, .inl h.symm⟩
  rw [if_neg hp] at h
  by_cases ha : memAdmit s.verdict .fetch s.pc .word
  · rw [if_pos ha] at h
    cases hd : decode (wordAt s s.pc) with
    | ok j => rw [hd] at h; cases h
    | error e =>
      rw [hd] at h; injection h with h
      by_cases h4 : isFourByte (wordAt s s.pc)
      · rw [if_pos h4] at h; exact ⟨_, .inr h.symm⟩
      · rw [if_neg h4] at h; exact ⟨_, .inl h.symm⟩
  · rw [if_neg ha] at h; injection h with h; exact ⟨_, .inl h.symm⟩

/-- A step that answers next is a front-end fault or an instruction, from a Running state (R98). -/
theorem step_next_cases {s t : State} (h : step s = .next t) : s.status = .running ∧
    (frontEnd s = .error t ∨ ∃ i, frontEnd s = .ok i ∧ exec i s = .next t) := by
  by_cases hr : s.status = .running
  · rw [step_running hr] at h
    cases hf : frontEnd s with
    | ok i => rw [hf] at h; exact ⟨hr, .inr ⟨i, rfl, h⟩⟩
    | error e => rw [hf] at h; injection h with h; exact ⟨hr, .inl (by rw [h])⟩
  · rw [step_terminal hr] at h; cases h

end Sys2Proof.Machine
end

