-- ==== Sys2Proof/Tests/Slice0.lean ====
section
/-! SUPPORT. The model's own tests. Every expected value is the spec's: the vectors V1 to V9 and T1 to T168 of
95_test_vectors.md (the name of a test ends in the vector's), or the encodings of 30_encoding.md written out. The witness
theorems at the end show, for each obligation with hypotheses, a concrete state and operands that meet all of them. -/

namespace Sys2Proof.Tests
open Sys2Proof Sys2Proof.Machine

/-! ## Small states -/

/-- The vectors' start state: the word at 0x100, the registers and the bytes given, everything else as after reset. -/
def at100 (w : InstrWord) (regs : List (RegIdx × Word)) (cells : List (Word × Byte)) : State :=
  let s := regs.foldl (fun s r => s.writeReg r.1 r.2) (State.reset.setPc 0x100#64)
  let s := s.setMem (cells.foldl (fun m c => m.write c.1.toNat c.2) s.mem)
  s.withFetchWord 32 w.toNat

/-- A register, the pc and the status after one step. -/
def afterStep (s : State) (i : RegIdx) : Option (Word × Word × Status) :=
  match step s with
  | .next t => some (t.readReg i, t.pc, t.status)
  | .fault _ => none
  | .refused _ => none

/-- The bytes from an address on, and the pc and the status, after one step. -/
def bytesAfter (s : State) (addr : Word) (n : Nat) : Option (List Byte × Word × Status) :=
  match step s with
  | .next t => some ((List.range n).map fun i => t.byteAt (addr + BitVec.ofNat 64 i), t.pc, t.status)
  | .fault _ => none
  | .refused _ => none

/-- The memory of 45_loads_stores.md's examples: `11 22 33 44 55 66 77 88` from 0x1000 on. -/
def eightBytes : List (Word × Byte) :=
  [(0x1000#64, 0x11#8), (0x1001#64, 0x22#8), (0x1002#64, 0x33#8), (0x1003#64, 0x44#8),
   (0x1004#64, 0x55#8), (0x1005#64, 0x66#8), (0x1006#64, 0x77#8), (0x1007#64, 0x88#8)]

/-- The `MemAdmit` of T166 to T168: ea + n ≤ 0x2000 and n divides ea. -/
def alignedBelow2000 : List AdmitRow :=
  [AccessKind.fetch, .load, .store].flatMap fun kind => [Width.byte, .half, .word, .double].map fun n =>
    { kind := kind, width := n, first := 0#64, last := BitVec.ofNat 64 (0x2000 - n.bytes), align := n.bytes }

/-- The same state with another verdict. -/
def withVerdict (s : State) (table : List AdmitRow) : State := { s with verdict := table }

/-- The word decodes to the instruction and the instruction encodes to the word. -/
def agrees (w : InstrWord) (i : Instr) : Bool := decide (decode w = .ok i) && encode i == w

/-! ## WellFormed: each check refuses an ill-formed term -/

theorem test_wellFormed_odd_branch_refused :
    [Instr.beq 1#5 1#5 1#13, .bne 1#5 2#5 3#13, .blt 1#5 2#5 (-1#13), .bge 1#5 2#5 4095#13, .bltu 1#5 2#5 5#13,
     .bgeu 1#5 2#5 (-4095#13)].all (fun i => !i.wellFormed) = true := by decide

theorem test_wellFormed_odd_jal_refused : (Instr.jal 1#5 1048575#21).wellFormed = false := by decide

theorem test_wellFormed_even_accepted :
    [Instr.beq 1#5 1#5 (-4096#13), .bgeu 1#5 2#5 4094#13, .jal 1#5 (-1048576#21), .jal 1#5 2#21, .ecall].all
      Instr.wellFormed = true := by decide

/-! ## Decoding and encoding: every constructor, words from the spec's examples -/

theorem test_decode_load :
    [agrees 0x00708183#32 (.lb 3#5 1#5 7#12),
     agrees 0x00609183#32 (.lh 3#5 1#5 6#12),
     agrees 0x0040A183#32 (.lw 3#5 1#5 4#12),
     agrees 0x0000B183#32 (.ld 3#5 1#5 0#12),
     agrees 0x0070C183#32 (.lbu 3#5 1#5 7#12),
     agrees 0x0060D183#32 (.lhu 3#5 1#5 6#12)].all id = true := by decide

theorem test_decode_opImm :
    [agrees 0xFFA08193#32 (.addi 3#5 1#5 (-6#12)),
     agrees 0xFFF0A193#32 (.slti 3#5 1#5 (-1#12)),
     agrees 0xFFF0B193#32 (.sltiu 3#5 1#5 (-1#12)),
     agrees 0xFFF0C193#32 (.xori 3#5 1#5 (-1#12)),
     agrees 0x8000E193#32 (.ori 3#5 1#5 (-2048#12)),
     agrees 0x7FF0F193#32 (.andi 3#5 1#5 2047#12),
     agrees 0x03F09193#32 (.slli 3#5 1#5 63#6),
     agrees 0x0200D193#32 (.srli 3#5 1#5 32#6),
     agrees 0x4210D193#32 (.srai 3#5 1#5 33#6)].all id = true := by decide

theorem test_decode_op :
    [agrees 0x002081B3#32 (.add 3#5 1#5 2#5),
     agrees 0x402081B3#32 (.sub 3#5 1#5 2#5),
     agrees 0x002091B3#32 (.sll 3#5 1#5 2#5),
     agrees 0x0020A1B3#32 (.slt 3#5 1#5 2#5),
     agrees 0x0020B1B3#32 (.sltu 3#5 1#5 2#5),
     agrees 0x0020C1B3#32 (.xor 3#5 1#5 2#5),
     agrees 0x0020D1B3#32 (.srl 3#5 1#5 2#5),
     agrees 0x4020D1B3#32 (.sra 3#5 1#5 2#5),
     agrees 0x0020E1B3#32 (.or 3#5 1#5 2#5),
     agrees 0x0020F1B3#32 (.and 3#5 1#5 2#5)].all id = true := by decide

theorem test_decode_muldiv :
    [agrees 0x022081B3#32 (.mul 3#5 1#5 2#5),
     agrees 0x022091B3#32 (.mulh 3#5 1#5 2#5),
     agrees 0x0220C1B3#32 (.div 3#5 1#5 2#5),
     agrees 0x0220E1B3#32 (.rem 3#5 1#5 2#5)].all id = true := by decide

theorem test_decode_upper_and_jumps :
    [agrees 0x123451B7#32 (.lui 3#5 0x12345#20),
     agrees 0xFFFFF197#32 (.auipc 3#5 0xFFFFF#20),
     agrees 0xFFDFF0EF#32 (.jal 1#5 (-4#21)),
     agrees 0x7FFFF2EF#32 (.jal 5#5 1048574#21),
     agrees 0x800002EF#32 (.jal 5#5 (-1048576#21)),
     agrees 0xFFF082E7#32 (.jalr 5#5 1#5 (-1#12))].all id = true := by decide

theorem test_decode_branch :
    [agrees 0xFE108EE3#32 (.beq 1#5 1#5 (-4#13)),
     agrees 0x00209863#32 (.bne 1#5 2#5 16#13),
     agrees 0xFE20CCE3#32 (.blt 1#5 2#5 (-8#13)),
     agrees 0x7E20DFE3#32 (.bge 1#5 2#5 4094#13),
     agrees 0x0020E663#32 (.bltu 1#5 2#5 12#13),
     agrees 0x8020F063#32 (.bgeu 1#5 2#5 (-4096#13))].all id = true := by decide

theorem test_decode_store :
    [agrees 0x00208023#32 (.sb 1#5 2#5 0#12),
     agrees 0x00209123#32 (.sh 1#5 2#5 2#12),
     agrees 0x8020A023#32 (.sw 1#5 2#5 (-2048#12)),
     agrees 0x7E20AFA3#32 (.sw 1#5 2#5 2047#12),
     agrees 0x0020B423#32 (.sd 1#5 2#5 8#12)].all id = true := by decide

theorem test_decode_word_and_system :
    [agrees 0x8000819B#32 (.addiw 3#5 1#5 (-2048#12)),
     agrees 0x00000073#32 (.ecall)].all id = true := by decide

/-! ### One word of every family and format written out field by field -/

/-- R62, R73, R74. -/
theorem test_bits_op : agrees (0b0000001#7 ++ 0b00010#5 ++ 0b00001#5 ++ 0b100#3 ++ 0b00011#5 ++ 0b0110011#7) (.div 3#5 1#5 2#5) = true := by decide

/-- R63, R73, R75. -/
theorem test_bits_op_imm : agrees (0b111111111010#12 ++ 0b00001#5 ++ 0b000#3 ++ 0b00011#5 ++ 0b0010011#7) (.addi 3#5 1#5 (-6#12)) = true := by decide

/-- R63, R73, R75. -/
theorem test_bits_op_imm_shift : agrees (0b010000#6 ++ 0b100001#6 ++ 0b00001#5 ++ 0b101#3 ++ 0b00011#5 ++ 0b0010011#7) (.srai 3#5 1#5 33#6) = true := by decide

/-- R63, R73, R76. -/
theorem test_bits_op_imm_32 : agrees (0b000000000001#12 ++ 0b00001#5 ++ 0b000#3 ++ 0b00011#5 ++ 0b0011011#7) (.addiw 3#5 1#5 1#12) = true := by decide

/-- R63, R73, R77. -/
theorem test_bits_load : agrees (0b000000000100#12 ++ 0b00001#5 ++ 0b010#3 ++ 0b00011#5 ++ 0b0000011#7) (.lw 3#5 1#5 4#12) = true := by decide

/-- R63, R73, R79. -/
theorem test_bits_jalr : agrees (0b111111111111#12 ++ 0b00001#5 ++ 0b000#3 ++ 0b00101#5 ++ 0b1100111#7) (.jalr 5#5 1#5 (-1#12)) = true := by decide

/-- R64, R73, R77. -/
theorem test_bits_store : agrees (0b1111111#7 ++ 0b00010#5 ++ 0b00001#5 ++ 0b010#3 ++ 0b11100#5 ++ 0b0100011#7) (.sw 1#5 2#5 (-4#12)) = true := by decide

/-- R64, R73, R78; the bits are those of V3. -/
theorem test_bits_branch : agrees (0b1#1 ++ 0b111111#6 ++ 0b00001#5 ++ 0b00001#5 ++ 0b000#3 ++ 0b1110#4 ++ 0b1#1 ++ 0b1100011#7) (.beq 1#5 1#5 (-4#13)) = true := by decide

/-- R65, R73. -/
theorem test_bits_lui : agrees (0b00010010001101000101#20 ++ 0b00011#5 ++ 0b0110111#7) (.lui 3#5 0x12345#20) = true := by decide

/-- R65, R73. -/
theorem test_bits_auipc : agrees (0b00000000000000000001#20 ++ 0b00011#5 ++ 0b0010111#7) (.auipc 3#5 1#20) = true := by decide

/-- R65, R73: imm[19:12] = 5, imm[11] = 1, imm[10:1] = 4, so 5 * 4096 + 2048 + 8. -/
theorem test_bits_jal : agrees (0b0#1 ++ 0b0000000100#10 ++ 0b1#1 ++ 0b00000101#8 ++ 0b00001#5 ++ 0b1101111#7) (.jal 1#5 22536#21) = true := by decide

/-- R73, R80. -/
theorem test_bits_system : agrees (0#25 ++ 0b1110011#7) (.ecall) = true := by decide

/-- T143 to T148: words of no family. -/
theorem test_decode_rejections :
    [decide (decode 0x00000000#32 = .error .compressed), decide (decode 0x00004501#32 = .error .compressed),
     decide (decode 0xFFFFFFFF#32 = .error .unknownOpcode), decide (decode 0x0FF0000F#32 = .error .unknownOpcode),
     decide (decode 0x002081BB#32 = .error .unknownOpcode), decide (decode 0x1000B1AF#32 = .error .unknownOpcode)].all id
      = true := by decide

/-- T149 to T156 and T159 to T163: words of a family with no variant. -/
theorem test_decode_unknown_funct :
    [0x00100073#32, 0xC00021F3#32, 0x000000F3#32, 0x30200073#32, 0x0220B1B3#32, 0x0220D1B3#32, 0x402091B3#32,
     0x40109193#32, 0x0010919B#32, 0x0000E183#32, 0x0020C023#32, 0x0020A463#32, 0x000090E7#32].all
      (fun w => decide (decode w = .error .unknownFunct)) = true := by decide

/-- The decoder reads a table word through memory's byte order (R44). -/
theorem test_decodeTableWord : decodeTableWord 32 0x00100093 = some (.addi 1#5 0#5 1#12) := by decide
theorem test_decodeBytes_truncated : decide (decodeBytes [0x13#8, 0#8, 0#8] = .error .truncated) = true := by decide

/-! ## One step: integer ALU, multiply and divide -/

/-- T1: ADD x3, x1, x2. -/
theorem test_add_T1 : afterStep (at100 0x2081B3#32 [(1#5, 0x7FFFFFFFFFFFFFFF#64), (2#5, 0x1#64)] []) 3#5 =
    some (0x8000000000000000#64, 0x104#64, .running) := by decide

/-- T3: ADD x0, x1, x2. -/
theorem test_add_T3 : afterStep (at100 0x208033#32 [(1#5, 0x5#64), (2#5, 0x6#64)] []) 0#5 =
    some (0x0#64, 0x104#64, .running) := by decide

/-- T5: SUB x3, x1, x2. -/
theorem test_sub_T5 : afterStep (at100 0x402081B3#32 [(1#5, 0x0#64), (2#5, 0x1#64)] []) 3#5 =
    some (0xFFFFFFFFFFFFFFFF#64, 0x104#64, .running) := by decide

/-- T6: SUB x3, x1, x2. -/
theorem test_sub_T6 : afterStep (at100 0x402081B3#32 [(1#5, 0x8000000000000000#64), (2#5, 0x1#64)] []) 3#5 =
    some (0x7FFFFFFFFFFFFFFF#64, 0x104#64, .running) := by decide

/-- T8: ADDI x3, x1, -6. -/
theorem test_addi_T8 : afterStep (at100 0xFFA08193#32 [(1#5, 0x5#64)] []) 3#5 =
    some (0xFFFFFFFFFFFFFFFF#64, 0x104#64, .running) := by decide

/-- T10: ADDI x3, x1, -2048. -/
theorem test_addi_T10 : afterStep (at100 0x80008193#32 [(1#5, 0x0#64)] []) 3#5 =
    some (0xFFFFFFFFFFFFF800#64, 0x104#64, .running) := by decide

/-- T11: ADDIW x3, x1, 1. -/
theorem test_addiw_T11 : afterStep (at100 0x10819B#32 [(1#5, 0x7FFFFFFF#64)] []) 3#5 =
    some (0xFFFFFFFF80000000#64, 0x104#64, .running) := by decide

/-- T15: ADDIW x3, x1, -2048. -/
theorem test_addiw_T15 : afterStep (at100 0x8000819B#32 [(1#5, 0x80000000#64)] []) 3#5 =
    some (0x7FFFF800#64, 0x104#64, .running) := by decide

/-- T16: SLL x3, x1, x2. -/
theorem test_sll_T16 : afterStep (at100 0x2091B3#32 [(1#5, 0x1#64), (2#5, 0x41#64)] []) 3#5 =
    some (0x2#64, 0x104#64, .running) := by decide

/-- T17: SLL x3, x1, x2. -/
theorem test_sll_T17 : afterStep (at100 0x2091B3#32 [(1#5, 0x1#64), (2#5, 0x3F#64)] []) 3#5 =
    some (0x8000000000000000#64, 0x104#64, .running) := by decide

/-- T19: SLLI x3, x1, 63. -/
theorem test_slli_T19 : afterStep (at100 0x3F09193#32 [(1#5, 0x3#64)] []) 3#5 =
    some (0x8000000000000000#64, 0x104#64, .running) := by decide

/-- T21: SRL x3, x1, x2. -/
theorem test_srl_T21 : afterStep (at100 0x20D1B3#32 [(1#5, 0x8000000000000000#64), (2#5, 0x3F#64)] []) 3#5 =
    some (0x1#64, 0x104#64, .running) := by decide

/-- T22: SRL x3, x1, x2. -/
theorem test_srl_T22 : afterStep (at100 0x20D1B3#32 [(1#5, 0x8000000000000000#64), (2#5, 0xFFFFFFFFFFFFFFC0#64)] []) 3#5 =
    some (0x8000000000000000#64, 0x104#64, .running) := by decide

/-- T24: SRLI x3, x1, 32. -/
theorem test_srli_T24 : afterStep (at100 0x200D193#32 [(1#5, 0xFFFFFFFFFFFFFFFF#64)] []) 3#5 =
    some (0xFFFFFFFF#64, 0x104#64, .running) := by decide

/-- T157: SRLI x3, x1, 32 (funct6 = 000000, shamt[5] = 1; decodes). -/
theorem test_srli_T157 : afterStep (at100 0x200D193#32 [(1#5, 0xF00000000#64)] []) 3#5 =
    some (0xF#64, 0x104#64, .running) := by decide

/-- T25: SRA x3, x1, x2. -/
theorem test_sra_T25 : afterStep (at100 0x4020D1B3#32 [(1#5, 0x8000000000000000#64), (2#5, 0x3F#64)] []) 3#5 =
    some (0xFFFFFFFFFFFFFFFF#64, 0x104#64, .running) := by decide

/-- T27: SRA x3, x1, x2. -/
theorem test_sra_T27 : afterStep (at100 0x4020D1B3#32 [(1#5, 0xFFFFFFFFFFFFFFF0#64), (2#5, 0x44#64)] []) 3#5 =
    some (0xFFFFFFFFFFFFFFFF#64, 0x104#64, .running) := by decide

/-- T28: SRAI x3, x1, 2. -/
theorem test_srai_T28 : afterStep (at100 0x4020D193#32 [(1#5, 0xFFFFFFFFFFFFFFF0#64)] []) 3#5 =
    some (0xFFFFFFFFFFFFFFFC#64, 0x104#64, .running) := by decide

/-- T158: SRAI x3, x1, 33 (funct7 = 0100001; decodes). -/
theorem test_srai_T158 : afterStep (at100 0x4210D193#32 [(1#5, 0xFFFFFF0000000000#64)] []) 3#5 =
    some (0xFFFFFFFFFFFFFF80#64, 0x104#64, .running) := by decide

/-- T31: SLT x3, x1, x2. -/
theorem test_slt_T31 : afterStep (at100 0x20A1B3#32 [(1#5, 0xFFFFFFFFFFFFFFFF#64), (2#5, 0x1#64)] []) 3#5 =
    some (0x1#64, 0x104#64, .running) := by decide

/-- T33: SLT x3, x1, x2. -/
theorem test_slt_T33 : afterStep (at100 0x20A1B3#32 [(1#5, 0x8000000000000000#64), (2#5, 0x7FFFFFFFFFFFFFFF#64)] []) 3#5 =
    some (0x1#64, 0x104#64, .running) := by decide

/-- T35: SLTI x3, x1, -1. -/
theorem test_slti_T35 : afterStep (at100 0xFFF0A193#32 [(1#5, 0xFFFFFFFFFFFFFFFE#64)] []) 3#5 =
    some (0x1#64, 0x104#64, .running) := by decide

/-- T36: SLTI x3, x1, -1. -/
theorem test_slti_T36 : afterStep (at100 0xFFF0A193#32 [(1#5, 0x0#64)] []) 3#5 =
    some (0x0#64, 0x104#64, .running) := by decide

/-- T37: SLTU x3, x1, x2. -/
theorem test_sltu_T37 : afterStep (at100 0x20B1B3#32 [(1#5, 0x1#64), (2#5, 0xFFFFFFFFFFFFFFFF#64)] []) 3#5 =
    some (0x1#64, 0x104#64, .running) := by decide

/-- T38: SLTU x3, x1, x2. -/
theorem test_sltu_T38 : afterStep (at100 0x20B1B3#32 [(1#5, 0xFFFFFFFFFFFFFFFF#64), (2#5, 0x1#64)] []) 3#5 =
    some (0x0#64, 0x104#64, .running) := by decide

/-- T40: SLTIU x3, x1, -1. -/
theorem test_sltiu_T40 : afterStep (at100 0xFFF0B193#32 [(1#5, 0x5#64)] []) 3#5 =
    some (0x1#64, 0x104#64, .running) := by decide

/-- T42: SLTIU x3, x1, 1. -/
theorem test_sltiu_T42 : afterStep (at100 0x10B193#32 [(1#5, 0x1#64)] []) 3#5 =
    some (0x0#64, 0x104#64, .running) := by decide

/-- T43: XOR x3, x1, x2. -/
theorem test_xor_T43 : afterStep (at100 0x20C1B3#32 [(1#5, 0xFF00FF00FF00FF00#64), (2#5, 0xFF00FF00FF00FF0#64)] []) 3#5 =
    some (0xF0F0F0F0F0F0F0F0#64, 0x104#64, .running) := by decide

/-- T45: XORI x3, x1, -1. -/
theorem test_xori_T45 : afterStep (at100 0xFFF0C193#32 [(1#5, 0xFF#64)] []) 3#5 =
    some (0xFFFFFFFFFFFFFF00#64, 0x104#64, .running) := by decide

/-- T46: OR x3, x1, x2. -/
theorem test_or_T46 : afterStep (at100 0x20E1B3#32 [(1#5, 0xF0#64), (2#5, 0xF#64)] []) 3#5 =
    some (0xFF#64, 0x104#64, .running) := by decide

/-- T47: ORI x3, x1, -2048. -/
theorem test_ori_T47 : afterStep (at100 0x8000E193#32 [(1#5, 0x1#64)] []) 3#5 =
    some (0xFFFFFFFFFFFFF801#64, 0x104#64, .running) := by decide

/-- T48: AND x3, x1, x2. -/
theorem test_and_T48 : afterStep (at100 0x20F1B3#32 [(1#5, 0xFF00FF00FF00FF00#64), (2#5, 0xFF00FF00FF00FF0#64)] []) 3#5 =
    some (0xF000F000F000F00#64, 0x104#64, .running) := by decide

/-- T49: ANDI x3, x1, 2047. -/
theorem test_andi_T49 : afterStep (at100 0x7FF0F193#32 [(1#5, 0xFFFFFFFFFFFFFFFF#64)] []) 3#5 =
    some (0x7FF#64, 0x104#64, .running) := by decide

/-- T50: ANDI x3, x1, -1. -/
theorem test_andi_T50 : afterStep (at100 0xFFF0F193#32 [(1#5, 0x123456789#64)] []) 3#5 =
    some (0x123456789#64, 0x104#64, .running) := by decide

/-- T51: MUL x3, x1, x2. -/
theorem test_mul_T51 : afterStep (at100 0x22081B3#32 [(1#5, 0xFFFFFFFFFFFFFFFD#64), (2#5, 0x7#64)] []) 3#5 =
    some (0xFFFFFFFFFFFFFFEB#64, 0x104#64, .running) := by decide

/-- T53: MUL x3, x1, x2. -/
theorem test_mul_T53 : afterStep (at100 0x22081B3#32 [(1#5, 0x8000000000000000#64), (2#5, 0xFFFFFFFFFFFFFFFF#64)] []) 3#5 =
    some (0x8000000000000000#64, 0x104#64, .running) := by decide

/-- T56: MULH x3, x1, x2. -/
theorem test_mulh_T56 : afterStep (at100 0x22091B3#32 [(1#5, 0xFFFFFFFFFFFFFFFF#64), (2#5, 0x1#64)] []) 3#5 =
    some (0xFFFFFFFFFFFFFFFF#64, 0x104#64, .running) := by decide

/-- T57: MULH x3, x1, x2. -/
theorem test_mulh_T57 : afterStep (at100 0x22091B3#32 [(1#5, 0x8000000000000000#64), (2#5, 0x8000000000000000#64)] []) 3#5 =
    some (0x4000000000000000#64, 0x104#64, .running) := by decide

/-- T61: DIV x3, x1, x2. -/
theorem test_div_T61 : afterStep (at100 0x220C1B3#32 [(1#5, 0xFFFFFFFFFFFFFFF9#64), (2#5, 0x2#64)] []) 3#5 =
    some (0xFFFFFFFFFFFFFFFD#64, 0x104#64, .running) := by decide

/-- T68: DIV x3, x1, x2. -/
theorem test_div_T68 : afterStep (at100 0x220C1B3#32 [(1#5, 0x8000000000000000#64), (2#5, 0xFFFFFFFFFFFFFFFF#64)] []) 3#5 =
    some (0x8000000000000000#64, 0x104#64, .running) := by decide

/-- T74: REM x3, x1, x2. -/
theorem test_rem_T74 : afterStep (at100 0x220E1B3#32 [(1#5, 0x7#64), (2#5, 0xFFFFFFFFFFFFFFFE#64)] []) 3#5 =
    some (0x1#64, 0x104#64, .running) := by decide

/-- T79: REM x3, x1, x2. -/
theorem test_rem_T79 : afterStep (at100 0x220E1B3#32 [(1#5, 0x8000000000000000#64), (2#5, 0xFFFFFFFFFFFFFFFF#64)] []) 3#5 =
    some (0x0#64, 0x104#64, .running) := by decide

/-! ## One step: upper immediates, jumps, branches -/

/-- T83: LUI x3, 0x12345. -/
theorem test_lui_T83 : afterStep (at100 0x123451B7#32 [] []) 3#5 =
    some (0x12345000#64, 0x104#64, .running) := by decide

/-- T84: LUI x3, 0x80000. -/
theorem test_lui_T84 : afterStep (at100 0x800001B7#32 [] []) 3#5 =
    some (0xFFFFFFFF80000000#64, 0x104#64, .running) := by decide

/-- T87: AUIPC x3, 1. -/
theorem test_auipc_T87 : afterStep (at100 0x1197#32 [] []) 3#5 =
    some (0x1100#64, 0x104#64, .running) := by decide

/-- T89: AUIPC x3, 0xFFFFF. -/
theorem test_auipc_T89 : afterStep (at100 0xFFFFF197#32 [] []) 3#5 =
    some (0xFFFFFFFFFFFFF100#64, 0x104#64, .running) := by decide

/-- T91: JAL x1, -4. -/
theorem test_jal_T91 : afterStep (at100 0xFFDFF0EF#32 [] []) 1#5 =
    some (0x104#64, 0xFC#64, .running) := by decide

/-- T95: JAL x5, -1048576. -/
theorem test_jal_T95 : afterStep (at100 0x800002EF#32 [] []) 5#5 =
    some (0x104#64, 0xFFFFFFFFFFF00100#64, .running) := by decide

/-- T96: JALR x1, 0(x1). -/
theorem test_jalr_T96 : afterStep (at100 0x80E7#32 [(1#5, 0x1001#64)] []) 1#5 =
    some (0x104#64, 0x1000#64, .running) := by decide

/-- T97: JALR x5, -1(x1). -/
theorem test_jalr_T97 : afterStep (at100 0xFFF082E7#32 [(1#5, 0x2000#64)] []) 5#5 =
    some (0x104#64, 0x1FFE#64, .running) := by decide

/-- T102: BEQ x1, x1, -4. -/
theorem test_beq_T102 : afterStep (at100 0xFE108EE3#32 [(1#5, 0x55#64)] []) 0#5 =
    some (0x0#64, 0xFC#64, .running) := by decide

/-- T103: BEQ x1, x2, 8. -/
theorem test_beq_T103 : afterStep (at100 0x208463#32 [(1#5, 0x1#64), (2#5, 0x2#64)] []) 0#5 =
    some (0x0#64, 0x104#64, .running) := by decide

/-- T104: BNE x1, x2, 16. -/
theorem test_bne_T104 : afterStep (at100 0x209863#32 [(1#5, 0x1#64), (2#5, 0x2#64)] []) 0#5 =
    some (0x0#64, 0x110#64, .running) := by decide

/-- T105: BNE x1, x2, 16. -/
theorem test_bne_T105 : afterStep (at100 0x209863#32 [(1#5, 0x2#64), (2#5, 0x2#64)] []) 0#5 =
    some (0x0#64, 0x104#64, .running) := by decide

/-- T106: BLT x1, x2, -8. -/
theorem test_blt_T106 : afterStep (at100 0xFE20CCE3#32 [(1#5, 0xFFFFFFFFFFFFFFFF#64), (2#5, 0x1#64)] []) 0#5 =
    some (0x0#64, 0xF8#64, .running) := by decide

/-- T107: BLT x1, x2, -8. -/
theorem test_blt_T107 : afterStep (at100 0xFE20CCE3#32 [(1#5, 0x1#64), (2#5, 0xFFFFFFFFFFFFFFFF#64)] []) 0#5 =
    some (0x0#64, 0x104#64, .running) := by decide

/-- T109: BGE x1, x2, 12. -/
theorem test_bge_T109 : afterStep (at100 0x20D663#32 [(1#5, 0xFFFFFFFFFFFFFFFF#64), (2#5, 0x1#64)] []) 0#5 =
    some (0x0#64, 0x104#64, .running) := by decide

/-- T111: BGE x1, x2, -4096. -/
theorem test_bge_T111 : afterStep (at100 0x8020D063#32 [(1#5, 0x7FFFFFFFFFFFFFFF#64), (2#5, 0x8000000000000000#64)] []) 0#5 =
    some (0x0#64, 0xFFFFFFFFFFFFF100#64, .running) := by decide

/-- T112: BLTU x1, x2, 12. -/
theorem test_bltu_T112 : afterStep (at100 0x20E663#32 [(1#5, 0x1#64), (2#5, 0xFFFFFFFFFFFFFFFF#64)] []) 0#5 =
    some (0x0#64, 0x10C#64, .running) := by decide

/-- T113: BLTU x1, x2, 12. -/
theorem test_bltu_T113 : afterStep (at100 0x20E663#32 [(1#5, 0xFFFFFFFFFFFFFFFF#64), (2#5, 0x1#64)] []) 0#5 =
    some (0x0#64, 0x104#64, .running) := by decide

/-- T115: BGEU x1, x2, -4096. -/
theorem test_bgeu_T115 : afterStep (at100 0x8020F063#32 [(1#5, 0xFFFFFFFFFFFFFFFF#64), (2#5, 0x1#64)] []) 0#5 =
    some (0x0#64, 0xFFFFFFFFFFFFF100#64, .running) := by decide

/-- T116: BGEU x1, x2, -4096. -/
theorem test_bgeu_T116 : afterStep (at100 0x8020F063#32 [(1#5, 0x1#64), (2#5, 0xFFFFFFFFFFFFFFFF#64)] []) 0#5 =
    some (0x0#64, 0x104#64, .running) := by decide

/-! ## One step: loads and stores -/

/-- T118: LB x3, 7(x1). -/
theorem test_lb_T118 : afterStep (at100 0x708183#32 [(1#5, 0x1000#64)] eightBytes) 3#5 =
    some (0xFFFFFFFFFFFFFF88#64, 0x104#64, .running) := by decide

/-- T120: LB x3, -1(x1). -/
theorem test_lb_T120 : afterStep (at100 0xFFF08183#32 [(1#5, 0x1000#64)] eightBytes) 3#5 =
    some (0x0#64, 0x104#64, .running) := by decide

/-- T121: LH x3, 6(x1). -/
theorem test_lh_T121 : afterStep (at100 0x609183#32 [(1#5, 0x1000#64)] eightBytes) 3#5 =
    some (0xFFFFFFFFFFFF8877#64, 0x104#64, .running) := by decide

/-- T122: LH x3, 1(x1). -/
theorem test_lh_T122 : afterStep (at100 0x109183#32 [(1#5, 0x1000#64)] eightBytes) 3#5 =
    some (0x3322#64, 0x104#64, .running) := by decide

/-- T123: LW x3, 4(x1). -/
theorem test_lw_T123 : afterStep (at100 0x40A183#32 [(1#5, 0x1000#64)] eightBytes) 3#5 =
    some (0xFFFFFFFF88776655#64, 0x104#64, .running) := by decide

/-- T125: LD x3, 0(x1). -/
theorem test_ld_T125 : afterStep (at100 0xB183#32 [(1#5, 0x1000#64)] eightBytes) 3#5 =
    some (0x8877665544332211#64, 0x104#64, .running) := by decide

/-- T126: LD x1, 0(x1). -/
theorem test_ld_T126 : afterStep (at100 0xB083#32 [(1#5, 0x1000#64)] eightBytes) 1#5 =
    some (0x8877665544332211#64, 0x104#64, .running) := by decide

/-- T127: LBU x3, 7(x1). -/
theorem test_lbu_T127 : afterStep (at100 0x70C183#32 [(1#5, 0x1000#64)] eightBytes) 3#5 =
    some (0x88#64, 0x104#64, .running) := by decide

/-- T128: LHU x3, 6(x1). -/
theorem test_lhu_T128 : afterStep (at100 0x60D183#32 [(1#5, 0x1000#64)] eightBytes) 3#5 =
    some (0x8877#64, 0x104#64, .running) := by decide

/-- T166: a load the port refuses. -/
theorem test_lw_T166 : afterStep (withVerdict (at100 0x0020A183#32 [(1#5, 0x1000#64)] []) alignedBelow2000) 3#5 =
    some (0#64, 0x104#64, .faulted (.memoryFault 0x100#64 .load 0x1002#64 .word)) := by decide

/-- T132: SB x2, 0(x1). -/
theorem test_sb_T132 :
    bytesAfter (at100 0x00208023#32 [(1#5, 0x1000#64), (2#5, 0x1122334455667788#64)] []) 0x1000#64 2 =
      some ([0x88#8, 0#8], 0x104#64, .running) := by decide

/-- T133: SH x2, 2(x1). -/
theorem test_sh_T133 :
    bytesAfter (at100 0x00209123#32 [(1#5, 0x1000#64), (2#5, 0x1122334455667788#64)] []) 0x1002#64 3 =
      some ([0x88#8, 0x77#8, 0#8], 0x104#64, .running) := by decide

/-- T134: SW x2, -4(x1). -/
theorem test_sw_T134 :
    bytesAfter (at100 0xFE20AE23#32 [(1#5, 0x1000#64), (2#5, 0x1122334455667788#64)] []) 0xFFC#64 5 =
      some ([0x88#8, 0x77#8, 0x66#8, 0x55#8, 0#8], 0x104#64, .running) := by decide

/-- T168: SW x2, 0(x1) under the verdict of T166. -/
theorem test_sw_T168 :
    bytesAfter (withVerdict (at100 0x0020A023#32 [(1#5, 0x1004#64), (2#5, 0xAABBCCDD#64)] []) alignedBelow2000) 0x1004#64 4
      = some ([0xDD#8, 0xCC#8, 0xBB#8, 0xAA#8], 0x104#64, .running) := by decide

/-- T135: SD x2, 8(x1). -/
theorem test_sd_T135 :
    bytesAfter (at100 0x0020B423#32 [(1#5, 0x1000#64), (2#5, 0x1122334455667788#64)] []) 0x1008#64 8 =
      some ([0x88#8, 0x77#8, 0x66#8, 0x55#8, 0x44#8, 0x33#8, 0x22#8, 0x11#8], 0x104#64, .running) := by decide

/-- T167: a store the port refuses writes no byte. -/
theorem test_sd_T167 :
    bytesAfter (withVerdict (at100 0x0020B023#32 [(1#5, 0x2000#64), (2#5, 0x55#64)] []) alignedBelow2000) 0x2000#64 1 =
      some ([0#8], 0x104#64, .faulted (.memoryFault 0x100#64 .store 0x2000#64 .double)) := by decide

/-! ## One step: system calls and the faults before execute -/

/-- T138: ECALL, the exit call. -/
theorem test_ecall_T138 : afterStep (at100 0x00000073#32 [(17#5, 0x5D#64), (10#5, 0x2A#64)] []) 10#5 =
    some (0x2A#64, 0x104#64, .exited 0x2A#64) := by decide

/-- T142: all 64 bits of the number are compared. -/
theorem test_ecall_T142 : afterStep (at100 0x00000073#32 [(17#5, 0x10000005D#64)] []) 10#5 =
    some (0#64, 0x104#64, .faulted (.unsupportedSyscall 0x100#64 0x10000005D#64)) := by decide

/-- T144: a 16-bit word, the pc unchanged. -/
theorem test_fetch_T144 : afterStep (at100 0x00004501#32 [] []) 0#5 =
    some (0#64, 0x100#64, .faulted (.unknownOpcode 0x100#64 0x00004501#32 0b0000001#7)) := by decide

/-- T146: FENCE, an opcode of no family. -/
theorem test_fetch_T146 : afterStep (at100 0x0FF0000F#32 [] []) 0#5 =
    some (0#64, 0x104#64, .faulted (.unknownOpcode 0x100#64 0x0FF0000F#32 0b0001111#7)) := by decide

/-- T153: MULHU, a family's word with no variant. -/
theorem test_fetch_T153 : afterStep (at100 0x0220B1B3#32 [] []) 0#5 =
    some (0#64, 0x104#64, .faulted (.unknownFunct 0x100#64 0x0220B1B3#32 0b0110011#7 0b011#3 0b0000001#7)) := by decide

/-- T164: an odd pc, although the port refuses everything. -/
theorem test_fetch_T164 : afterStep (withVerdict (State.reset.setPc 5#64) []) 0#5 =
    some (0#64, 5#64, .faulted (.misalignedProgramCounter 5#64)) := by decide

/-- T165: an even pc that is not a multiple of 4 is fetched. -/
theorem test_fetch_T165 : afterStep ((State.reset.setPc 0x102#64).withFetchWord 32 0x00000013) 0#5 =
    some (0#64, 0x106#64, .running) := by decide

/-- D6, C6: a fetch the port refuses. -/
theorem test_fetch_refused : afterStep (withVerdict (at100 0x00000013#32 [] []) []) 0#5 =
    some (0#64, 0x100#64, .faulted (.memoryFault 0x100#64 .fetch 0x100#64 .word)) := by decide

/-- R34: no step from a terminal status. -/
theorem test_no_step_after_exit : afterStep (State.reset.setStatus (.exited 0#64)) 0#5 = none := by decide

/-- V2 from reset: the loader's word is the first instruction that runs (R37, R192). -/
theorem test_reset_V2 : afterStep (State.reset.withFetchWord 32 0x00100093) 1#5 = some (1#64, 4#64, .running) := by decide

/-- P6: with nothing loaded, word 0 is a 16-bit word (R60). -/
theorem test_reset_nothing_loaded : afterStep State.reset 0#5 =
    some (0#64, 0#64, .faulted (.unknownOpcode 0#64 0#32 0#7)) := by decide

/-! ## Notation -/

theorem test_asm : (Instr.addi 3#5 1#5 (-6#12)).asm = "addi x3, x1, -6" := by decide
theorem test_asm_store : (Instr.sw 1#5 2#5 (-4#12)).asm = "sw x2, -4(x1)" := by decide
theorem test_abi : (abiName 17#5, abiName 10#5, abiName 31#5, abiName 18#5) = ("a7", "a0", "t6", "s2") := by decide
theorem test_pseudo_ret : Pseudo.expand .ret = [.jalr 0#5 1#5 0#12] := by decide

/-! ## Witnesses: the hypotheses of each obligation, met together by concrete states and operands -/

/-- The operands of T61 and T73: x1 = -7, x2 = 2. -/
def dividing : State := at100 0x0220C1B3#32 [(1#5, 0xFFFFFFFFFFFFFFF9#64), (2#5, 2#64)] []
/-- x1 = MIN, x2 = 1: next to the overflow pair. -/
def dividingMin : State := at100 0x0220C1B3#32 [(1#5, 0x8000000000000000#64), (2#5, 1#64)] []
/-- A store and a load at 0x1008 with x1 = 0x1000, everything admitted. -/
def storing : State := at100 0x0020B423#32 [(1#5, 0x1000#64), (2#5, 0x1122334455667788#64)] []

theorem witness_DecodeOfEncode : (Instr.bge 1#5 2#5 (-4096#13)).wellFormed = true := by decide
theorem witness_EncodeOfDecode : decode 0x8020F063#32 = .ok (.bgeu 1#5 2#5 (-4096#13)) := by decide
theorem witness_EveryWordHasOneReading :
    0x00000073#32 &&& Variant.ecall.maskBits = Variant.ecall.matchBits ∧ (0x00004501#32).extractLsb' 0 2 ≠ 0b11#2 ∧
    (0xFFFFFFFF#32).extractLsb' 0 2 = 0b11#2 ∧ (0x00100073#32).extractLsb' 0 7 = Family.system.opcode := by decide
theorem witness_DivisionIdentity :
    3#5 ≠ 0#5 ∧ dividing.readReg 2#5 ≠ 0#64 ∧
    ¬(dividing.readReg 1#5 = 0x8000000000000000#64 ∧ dividing.readReg 2#5 = 0xFFFFFFFFFFFFFFFF#64) ∧
    (∃ t, exec (.div 3#5 1#5 2#5) dividing = .next t) ∧ ∃ u, exec (.rem 3#5 1#5 2#5) dividing = .next u :=
  ⟨by decide, by decide, by decide, ⟨_, rfl⟩, ⟨_, rfl⟩⟩
theorem witness_DivisionIdentity_least_dividend :
    dividingMin.readReg 1#5 = 0x8000000000000000#64 ∧ dividingMin.readReg 2#5 ≠ 0#64 ∧
    ¬(dividingMin.readReg 1#5 = 0x8000000000000000#64 ∧ dividingMin.readReg 2#5 = 0xFFFFFFFFFFFFFFFF#64) := by decide
theorem witness_ShiftResults : 1#6 ≠ 0b000000#6 ∧ 1#6 ≠ 0b010000#6 ∧ 63#6 ≠ 0b000000#6 ∧ 0b010000#6 ≠ 0b000000#6 := by decide
theorem witness_JumpResults_funct3 : 1#3 ≠ 0b000#3 ∧ 7#3 ≠ 0b000#3 := by decide
theorem witness_JumpResults : (-1048576#21 : BitVec 21).getLsbD 0 = false ∧ (1048574#21).getLsbD 0 = false := by decide
theorem witness_BranchResults : (-4096#13 : BitVec 13).getLsbD 0 = false ∧ (4094#13).getLsbD 0 = false := by decide
/-- Both clauses of each load, at the ends of the admitted range of T166's verdict. -/
theorem witness_LoadResults :
    [Width.byte, .half, .word, .double].all (fun n =>
      memAdmit alignedBelow2000 .load 0#64 n && memAdmit alignedBelow2000 .load (0x2000#64 - BitVec.ofNat 64 n.bytes) n &&
      !memAdmit alignedBelow2000 .load 0x2000#64 n) = true := by decide
/-- Both clauses of each store. -/
theorem witness_StoreResults :
    storing.mem.wf ∧ [Width.byte, .half, .word, .double].all (fun n =>
      memAdmit alignedBelow2000 .store 0#64 n && memAdmit alignedBelow2000 .store (0x2000#64 - BitVec.ofNat 64 n.bytes) n &&
      memAdmit storing.verdict .store 0xFFFFFFFFFFFFFFFF#64 n && !memAdmit alignedBelow2000 .store 0x2000#64 n) = true := by
  decide
theorem witness_SystemCallResults_exit : (at100 0x00000073#32 [(17#5, 93#64)] []).readReg 17#5 = 93#64 := by decide
theorem witness_SystemCallResults_other : (at100 0x00000073#32 [(17#5, 94#64)] []).readReg 17#5 ≠ 93#64 := by decide
theorem witness_StepRunsDecodedInstruction :
    storing.status = .running ∧ storing.pc.getLsbD 0 = false ∧ memAdmit storing.verdict .fetch storing.pc .word = true ∧
    decode (storing.byteAt (storing.pc + 3#64) ++ storing.byteAt (storing.pc + 2#64) ++ storing.byteAt (storing.pc + 1#64)
      ++ storing.byteAt storing.pc) = .ok (.sd 1#5 2#5 8#12) := by decide
theorem witness_OddPcFaultsBeforeFetch :
    (State.reset.setStatus (.exited 0#64)).status ≠ .running ∧ (State.reset.setPc 5#64).status = .running ∧
    (State.reset.setPc 5#64).pc.getLsbD 0 = true := by decide
theorem witness_RefusedFetchFaults :
    (withVerdict State.reset []).status = .running ∧ (withVerdict State.reset []).pc.getLsbD 0 = false ∧
    memAdmit (withVerdict State.reset []).verdict .fetch (withVerdict State.reset []).pc .word = false := by decide
/-- The three clauses of UndecodableWordFaults. -/
theorem witness_UndecodableWordFaults :
    [(0x00004501#32, DecodeError.compressed), (0x0FF0000F#32, .unknownOpcode), (0x00100073#32, .unknownFunct)].all (fun p =>
      decide ((at100 p.1 [] []).status = .running) && !(at100 p.1 [] []).pc.getLsbD 0 &&
      memAdmit (at100 p.1 [] []).verdict .fetch (at100 p.1 [] []).pc .word &&
      decide (decode (wordAt (at100 p.1 [] []) (at100 p.1 [] []).pc) = .error p.2)) = true := by decide
theorem witness_DecoderConsistencyFaultNeverRaised : ∃ t, step (at100 0x00100073#32 [] []) = .next t := ⟨_, rfl⟩
theorem witness_FaultsArePrecise : ∃ t f, step State.reset = .next t ∧ t.status = .faulted f := ⟨_, _, rfl, rfl⟩
theorem witness_FaultsArePrecise_after_fetch :
    ∃ t f, step (at100 0x00100073#32 [] []) = .next t ∧ t.status = .faulted f := ⟨_, _, rfl, rfl⟩
theorem witness_OnlyEcallExits : ∃ t, step (at100 0x00000073#32 [(17#5, 93#64)] []) = .next t := ⟨_, rfl⟩
theorem inv_storing : Inv storing := ⟨by decide, by decide, by decide⟩
theorem witness_StepKeepsInvariant : Inv storing ∧ ∃ t, step storing = .next t := ⟨inv_storing, _, rfl⟩
theorem witness_NoRunReachesAnOddPc : Inv storing ∧ storing.status = .running := ⟨inv_storing, rfl⟩
theorem witness_VerdictNeverChanges : ∃ t, step storing = .next t := ⟨_, rfl⟩
theorem witness_RegisterZeroReadsZero :
    (∃ t, exec (.add 0#5 1#5 2#5) storing = .next t) ∧ ∃ t, step storing = .next t := ⟨⟨_, rfl⟩, ⟨_, rfl⟩⟩
theorem witness_WriteToRegisterZeroIsDiscarded : destOf (.lb 0#5 1#5 0#12) = some 0#5 := by decide
theorem witness_OnlyTheDestinationRegisterChanges :
    (∃ t, exec (.add 3#5 1#5 2#5) storing = .next t) ∧ destOf (.add 3#5 1#5 2#5) ≠ some 2#5 := ⟨⟨_, rfl⟩, by decide⟩
theorem witness_OnlyStoresChangeMemory :
    ∃ t, step storing = .next t ∧ t.byteAt 0x1008#64 ≠ storing.byteAt 0x1008#64 := ⟨_, rfl, by decide⟩
theorem witness_NonMemoryInstructionsIgnoreMemory : accessesMemory .ecall = false := by decide
/-- Two states that differ in x3, which SUB x3, x1, x2 does not read. -/
theorem witness_NoUnnamedRegisterIsRead :
    dividing.status = .running ∧ (dividing.writeReg 3#5 9#64).status = .running ∧
    (dividing.writeReg 3#5 9#64).pc = dividing.pc ∧ (dividing.writeReg 3#5 9#64).mem = dividing.mem ∧
    (dividing.writeReg 3#5 9#64).verdict = dividing.verdict ∧ (dividing.writeReg 3#5 9#64).readReg 3#5 ≠ dividing.readReg 3#5 ∧
    ∀ j ∈ sourcesOf (.sub 3#5 1#5 2#5), (dividing.writeReg 3#5 9#64).readReg j = dividing.readReg j := by decide
theorem witness_StoreDoubleThenLoadDouble :
    storing.mem.wf ∧ 3#5 ≠ 0#5 ∧ memAdmit storing.verdict .store (storing.readReg 1#5 + (8#12).signExtend 64) .double = true ∧
    memAdmit storing.verdict .load (storing.readReg 1#5 + (8#12).signExtend 64) .double = true := by decide
theorem witness_StoreWordThenLoadWord :
    storing.mem.wf ∧ 3#5 ≠ 0#5 ∧ memAdmit storing.verdict .store (storing.readReg 1#5 + (8#12).signExtend 64) .word = true ∧
    memAdmit storing.verdict .load (storing.readReg 1#5 + (8#12).signExtend 64) .word = true := by decide
/-- The last byte, the boundary of `k + n ≤ 8`. -/
theorem witness_NarrowReadsInsideStoredDouble :
    storing.mem.wf ∧ memAdmit storing.verdict .store (storing.readReg 1#5 + (8#12).signExtend 64) .double = true ∧
    memAdmit storing.verdict .load (storing.readReg 1#5 + (8#12).signExtend 64 + BitVec.ofNat 64 7) .byte = true ∧
    7 + Width.byte.bytes ≤ 8 ∧ ∃ t, exec (.sd 1#5 2#5 8#12) storing = .next t :=
  ⟨by decide, by decide, by decide, by decide, _, rfl⟩
/-- P4: SW x5, 16(x0) shape: the stored word 0x00700513 is ADDI x10, x0, 7, at the next instruction's address. -/
theorem witness_NextFetchSeesTheStore :
    (at100 0#32 [(1#5, 0x104#64), (5#5, 0x00700513#64)] []).mem.wf ∧
    (at100 0#32 [(1#5, 0x104#64), (5#5, 0x00700513#64)] []).status = .running ∧
    (at100 0#32 [(1#5, 0x104#64), (5#5, 0x00700513#64)] []).pc.getLsbD 0 = false ∧
    (at100 0#32 [(1#5, 0x104#64), (5#5, 0x00700513#64)] []).readReg 1#5 + (0#12).signExtend 64 =
      (at100 0#32 [(1#5, 0x104#64), (5#5, 0x00700513#64)] []).pc + 4#64 ∧
    memAdmit (at100 0#32 [(1#5, 0x104#64), (5#5, 0x00700513#64)] []).verdict .store 0x104#64 .word = true ∧
    memAdmit (at100 0#32 [(1#5, 0x104#64), (5#5, 0x00700513#64)] []).verdict .fetch 0x104#64 .word = true ∧
    decode (((at100 0#32 [(1#5, 0x104#64), (5#5, 0x00700513#64)] []).readReg 5#5).extractLsb' 0 32) =
      .ok (.addi 10#5 0#5 7#12) ∧
    ∃ t, exec (.sw 1#5 5#5 0#12) (at100 0#32 [(1#5, 0x104#64), (5#5, 0x00700513#64)] []) = .next t :=
  ⟨by decide, by decide, by decide, by decide, by decide, by decide, by decide, _, rfl⟩
theorem witness_CanonicalFormIsUnique :
    Memory.wf [(0x10, 0x13#8), (0xFFFFFFFFFFFFFFFF, 1#8)] ∧
    ∀ addr : Word, Memory.read [(0x10, 0x13#8), (0xFFFFFFFFFFFFFFFF, 1#8)] addr.toNat =
      Memory.read (Memory.write [(0x10, 0x13#8)] 0xFFFFFFFFFFFFFFFF 1#8) addr.toNat := ⟨by decide, fun _ => rfl⟩
theorem witness_RunStopsAtTheTerminalStatus :
    (State.reset.setStatus (.exited 0#64)).status ≠ .running ∧ State.reset.status = .running := by decide
theorem witness_JumpToItselfNeverEnds :
    (at100 0x0000006F#32 [] []).status = .running ∧ (at100 0x0000006F#32 [] []).pc.getLsbD 0 = false ∧
    memAdmit (at100 0x0000006F#32 [] []).verdict .fetch (at100 0x0000006F#32 [] []).pc .word = true ∧
    wordAt (at100 0x0000006F#32 [] []) (at100 0x0000006F#32 [] []).pc = 0x0000006F#32 := by decide
theorem witness_PlacedInstructionRuns :
    Inv storing ∧ storing.status = .running ∧ memAdmit storing.verdict .fetch storing.pc .word = true ∧
    (Instr.jal 1#5 (-4#21)).wellFormed = true := ⟨inv_storing, by decide, by decide, by decide⟩
theorem witness_LoadImmediateExpansion : (31#5 : RegIdx) ≠ 0#5 := by decide

end Sys2Proof.Tests
end

section
/-! SUPPORT. The architectural state (10_state.md): every instruction as one `retire` of a decoded record, two runs that
differ in the register file alone, and the proofs of the statements about reset, the invariant and the registers. -/

namespace Sys2Proof.Machine

/-! ## An instruction is its operands and its Execution Unit function -/

/-- The decoded-instruction record of an instruction in the state in which it was fetched (R31, R82). -/
def operandsOf (i : Instr) (s : State) : DecodedRecord :=
  match i with
  | .lui rd imm20 | .auipc rd imm20 => operandsUpper s i.variant rd imm20
  | .jal rd offset => operandsJal s i.variant rd offset
  | .jalr rd rs1 imm => operandsJalr s i.variant rd rs1 imm
  | .beq rs1 rs2 offset | .bne rs1 rs2 offset | .blt rs1 rs2 offset | .bge rs1 rs2 offset
  | .bltu rs1 rs2 offset | .bgeu rs1 rs2 offset => operandsBranch s i.variant rs1 rs2 offset
  | .lb rd rs1 imm | .lh rd rs1 imm | .lw rd rs1 imm | .ld rd rs1 imm | .lbu rd rs1 imm
  | .lhu rd rs1 imm => operandsLoad s i.variant rd rs1 imm
  | .sb rs1 rs2 imm | .sh rs1 rs2 imm | .sw rs1 rs2 imm | .sd rs1 rs2 imm => operandsStore s i.variant rs1 rs2 imm
  | .addi rd rs1 imm | .slti rd rs1 imm | .sltiu rd rs1 imm | .xori rd rs1 imm | .ori rd rs1 imm
  | .andi rd rs1 imm | .addiw rd rs1 imm => operandsOpImm s i.variant rd rs1 imm
  | .slli rd rs1 shamt | .srli rd rs1 shamt | .srai rd rs1 shamt => operandsShift s i.variant rd rs1 shamt
  | .add rd rs1 rs2 | .sub rd rs1 rs2 | .sll rd rs1 rs2 | .slt rd rs1 rs2 | .sltu rd rs1 rs2 | .xor rd rs1 rs2
  | .srl rd rs1 rs2 | .sra rd rs1 rs2 | .or rd rs1 rs2 | .and rd rs1 rs2 | .mul rd rs1 rs2 | .mulh rd rs1 rs2
  | .div rd rs1 rs2 | .rem rd rs1 rs2 => operandsOp s i.variant rd rs1 rs2
  | .ecall => operandsEcall s i.variant

/-- The Execution Unit function of a variant (R93). -/
def unitOf : Variant → DecodedRecord → ExecOut
  | .lui => unitLui
  | .auipc => unitAuipc
  | .jal => unitJal
  | .jalr => unitJalr
  | .beq => unitBranch cmpEq
  | .bne => unitBranch fun x y => !cmpEq x y
  | .blt => unitBranch cmpLtSigned
  | .bge => unitBranch fun x y => !cmpLtSigned x y
  | .bltu => unitBranch cmpLtUnsigned
  | .bgeu => unitBranch fun x y => !cmpLtUnsigned x y
  | .lb => unitLoad .byte .sign
  | .lh => unitLoad .half .sign
  | .lw => unitLoad .word .sign
  | .ld => unitLoad .double .zero
  | .lbu => unitLoad .byte .zero
  | .lhu => unitLoad .half .zero
  | .sb => unitStore .byte
  | .sh => unitStore .half
  | .sw => unitStore .word
  | .sd => unitStore .double
  | .add | .addi => unitAdd
  | .sub => unitSub
  | .addiw => unitAddWord
  | .slt | .slti => unitSlt
  | .sltu | .sltiu => unitSltu
  | .xor | .xori => unitXor
  | .or | .ori => unitOr
  | .and | .andi => unitAnd
  | .sll | .slli => unitSll
  | .srl | .srli => unitSrl
  | .sra | .srai => unitSra
  | .mul => unitMul
  | .mulh => unitMulh
  | .div => unitDiv
  | .rem => unitRem
  | .ecall => unitEcall

/-- What the Execution Unit yields for an instruction in the state in which it was fetched. -/
def outputOf (i : Instr) (s : State) : ExecOut := unitOf i.variant (operandsOf i s)

/-- Every meaning is the one `retire` of the instruction's operands and Execution Unit function (R93 to R98). -/
theorem exec_eq_stages (i : Instr) (s : State) :
    exec i s = .next (stages s.advancePc (operandsOf i s) (outputOf i s)) := by
  cases i <;> rfl

theorem operandsOf_a (i : Instr) (s : State) : (operandsOf i s).a = s.pc := by cases i <;> rfl

theorem operandsOf_dest (i : Instr) (s : State) : (operandsOf i s).dest = (destOf i).getD 0#5 := by cases i <;> rfl

/-- No Execution Unit function looks at the destination's number. -/
theorem outputOf_withDest (i : Instr) (d : RegIdx) (s : State) : outputOf (withDest i d) s = outputOf i s := by
  cases i <;> rfl

/-- The operands are read from the pc and the registers the instruction names, and from nothing else (R24, R82). -/
theorem operandsOf_congr {i : Instr} {s s' : State} (hpc : s'.pc = s.pc)
    (hregs : ∀ j ∈ sourcesOf i, s'.readReg j = s.readReg j) : operandsOf i s' = operandsOf i s := by
  cases i <;> simp_all [sourcesOf, operandsOf, operandsOp, operandsOpImm, operandsShift, operandsUpper, operandsJal,
    operandsJalr, operandsBranch, operandsStore, operandsLoad, operandsEcall]

/-- The output carries a value for a destination: a result, or a load, whose value replaces it (R94). -/
def ExecOut.yieldsValue (o : ExecOut) : Bool :=
  match o.memreq with
  | some (.load _ _ _) => true
  | some (.store _ _ _) | none => o.result.isSome

theorem unitBranch_yieldsValue (cond : Word → Word → Bool) (r : DecodedRecord) :
    (unitBranch cond r).yieldsValue = false := by
  unfold unitBranch
  split <;> rfl

/-- An instruction yields a value exactly when it has a destination (R24, R96). -/
theorem outputOf_yieldsValue (i : Instr) (s : State) : (outputOf i s).yieldsValue = (destOf i).isSome := by
  cases i
  case beq | bne | blt | bge | bltu | bgeu => exact unitBranch_yieldsValue ..
  all_goals rfl

/-! ## Two states that differ in their registers alone -/

/-! Write-back touches the register file alone (R96). -/

@[simp] theorem writeBack_pc (s : State) (d : RegIdx) (v : Option Word) : (writeBack s d v).pc = s.pc := by
  cases v <;> simp [writeBack]
@[simp] theorem writeBack_status (s : State) (d : RegIdx) (v : Option Word) : (writeBack s d v).status = s.status := by
  cases v <;> simp [writeBack]
@[simp] theorem writeBack_mem (s : State) (d : RegIdx) (v : Option Word) : (writeBack s d v).mem = s.mem := by
  cases v <;> simp [writeBack]
@[simp] theorem writeBack_verdict (s : State) (d : RegIdx) (v : Option Word) :
    (writeBack s d v).verdict = s.verdict := by
  cases v <;> simp [writeBack]

/-- The states agree on everything but the register file. -/
structure SameButRegs (s t : State) : Prop where
  pc : t.pc = s.pc
  status : t.status = s.status
  mem : t.mem = s.mem
  verdict : t.verdict = s.verdict

namespace SameButRegs

variable {s s' : State} (h : SameButRegs s s')
include h

theorem advancePc : SameButRegs s.advancePc s'.advancePc :=
  ⟨by simp [h.pc], h.status, h.mem, h.verdict⟩

theorem setMem (m : Memory) : SameButRegs (s.setMem m) (s'.setMem m) := ⟨h.pc, h.status, rfl, h.verdict⟩

theorem setStatus (x : Status) : SameButRegs (s.setStatus x) (s'.setStatus x) := ⟨h.pc, rfl, h.mem, h.verdict⟩

/-- Whichever register each side writes, and with whatever value. -/
theorem writeBack (d d' : RegIdx) (v v' : Option Word) :
    SameButRegs (Machine.writeBack s d v) (Machine.writeBack s' d' v') :=
  ⟨by simp [h.pc], by simp [h.status], by simp [h.mem], by simp [h.verdict]⟩

theorem commitPc (target : Option Word) : SameButRegs (Machine.commitPc s target) (Machine.commitPc s' target) := by
  cases target with
  | none => exact h
  | some a => exact ⟨rfl, h.status, h.mem, h.verdict⟩

theorem systemCall (a : Word) (r : SysRequest) :
    SameButRegs (Machine.systemCall s a r) (Machine.systemCall s' a r) := by
  unfold Machine.systemCall
  split <;> exact h.setStatus _

/-- The memory-access stage does not see the registers: both sides raise the same fault, or both go on with the same
result, and then there is one where the output yields a value (R94). -/
theorem memoryStage (a : Word) (o : ExecOut) :
    (∃ f, memoryStage s a o = .error f ∧ memoryStage s' a o = .error f) ∨
    ∃ t t' r, memoryStage s a o = .ok (t, r) ∧ memoryStage s' a o = .ok (t', r) ∧ SameButRegs t t' ∧
      (o.yieldsValue = true → r.isSome = true) := by
  obtain ⟨result, target, memreq, sysreq⟩ := o
  match memreq with
  | none => exact .inr ⟨s, s', result, rfl, rfl, h, id⟩
  | some (.load ea n ext) =>
    simp only [Machine.memoryStage, memRead, h.verdict, h.mem]
    by_cases hadmit : memAdmit s.verdict .load ea n
    · rw [if_pos hadmit]
      exact .inr ⟨s, s', _, rfl, rfl, h, fun _ => rfl⟩
    · rw [if_neg hadmit]
      exact .inl ⟨_, rfl, rfl⟩
  | some (.store ea n v) =>
    simp only [Machine.memoryStage, memWrite, h.verdict, h.mem]
    by_cases hadmit : memAdmit s.verdict .store ea n
    · rw [if_pos hadmit, if_pos hadmit]
      exact .inr ⟨_, _, result, rfl, rfl, h.setMem _, id⟩
    · rw [if_neg hadmit, if_neg hadmit]
      exact .inl ⟨_, rfl, rfl⟩

/-- The stages after decode do the same to everything but the registers, whatever the two sides' registers and
destinations are (R94 to R98). -/
theorem stages {d d' : DecodedRecord} (ha : d'.a = d.a) (o : ExecOut) :
    SameButRegs (stages s d o) (stages s' d' o) := by
  unfold Machine.stages
  rw [ha]
  obtain ⟨f, hs, hs'⟩ | ⟨t, t', r, hs, hs', hsame, -⟩ := h.memoryStage d.a o
  · simp only [hs, hs']
    exact h.setStatus _
  · simp only [hs, hs']
    cases o.sysreq with
    | some req => exact hsame.systemCall _ _
    | none => exact (hsame.writeBack _ _ _ _).commitPc _

end SameButRegs

@[simp] theorem commitPc_readReg (s : State) (target : Option Word) (i : RegIdx) :
    (commitPc s target).readReg i = s.readReg i := by
  cases target <;> rfl

/-- A system request ends the run (R95, R153, R154). -/
theorem systemCall_status_ne_running (s : State) (a : Word) (r : SysRequest) :
    (systemCall s a r).status ≠ .running := by
  unfold systemCall
  split <;> simp

/-- Where the stages do not end the run, a yielded value is the destination's, whatever the registers were (R96). -/
theorem stages_readReg_dest {s s' : State} (h : SameButRegs s s') {d : DecodedRecord} {o : ExecOut}
    (hvalue : o.yieldsValue = true) (hrun : (stages s d o).status = .running) :
    (stages s' d o).readReg d.dest = (stages s d o).readReg d.dest := by
  unfold stages at hrun ⊢
  obtain ⟨f, hs, hs'⟩ | ⟨t, t', r, hs, hs', -, hr⟩ := h.memoryStage d.a o
  · simp only [hs] at hrun
    cases hrun
  · simp only [hs, hs'] at hrun ⊢
    cases hsys : o.sysreq with
    | some req =>
      rw [hsys] at hrun
      exact absurd hrun (systemCall_status_ne_running t d.a req)
    | none =>
      obtain ⟨v, rfl⟩ := Option.isSome_iff_exists.1 (hr hvalue)
      simp only [commitPc_readReg, writeBack, writeReg_readReg_same]

/-! ## What an instruction leaves in the registers and in the invariant -/

/-- An instruction changes no register but its destination (R24, R96). -/
theorem ExecShape.readReg_of_ne {i : Instr} {s t : State} (shape : ExecShape i s t) {j : RegIdx}
    (hj : destOf i ≠ some j) : t.readReg j = s.readReg j := by
  have ne_dest {rd : RegIdx} (dest : destOf i = some rd) : j ≠ rd := fun h => hj (h ▸ dest)
  cases shape with
  | wrote rd v dest => exact (wroteReg_writeReg s rd v).otherRegs j (ne_dest dest)
  | linked rd target dest => exact (wroteReg_jump s rd _ target).otherRegs j (ne_dest dest)
  | branched | passed | stored | refused | unsupported | exited => rfl

/-- The pc advance keeps the invariant. -/
theorem Inv.advancePc {s : State} (h : Inv s) : Inv s.advancePc :=
  ⟨h.zeroSlot, h.memoryForm, even_add h.evenPc rfl⟩

theorem Inv.setStatus {s : State} (h : Inv s) (x : Status) : Inv (s.setStatus x) :=
  ⟨h.zeroSlot, h.memoryForm, h.evenPc⟩

theorem Inv.setPc {s : State} (h : Inv s) {target : Word} (even : target.getLsbD 0 = false) : Inv (s.setPc target) :=
  ⟨h.zeroSlot, h.memoryForm, even⟩

/-- A register write keeps the invariant: it never reaches slot 0 (R23). -/
theorem Inv.writeReg {s : State} (h : Inv s) (rd : RegIdx) (v : Word) : Inv (s.writeReg rd v) :=
  ⟨by simpa using h.zeroSlot, by simpa using h.memoryForm, by simpa using h.evenPc⟩

theorem Inv.setMem {s : State} (h : Inv s) {m : Memory} (hm : m.wf) : Inv (s.setMem m) :=
  ⟨h.zeroSlot, hm, h.evenPc⟩

/-- An instruction that has an encoding keeps the invariant. -/
theorem ExecShape.keeps_inv {i : Instr} {s t : State} (shape : ExecShape i s t) (wf : i.wellFormed = true)
    (hs : Inv s) : Inv t := by
  cases shape with
  | wrote rd v => exact hs.advancePc.writeReg rd v
  | linked rd target _ even => exact (hs.advancePc.writeReg rd _).setPc (even wf hs.evenPc)
  | branched target _ even => exact hs.advancePc.setPc (even wf hs.evenPc)
  | passed => exact hs.advancePc
  | stored ea n v => exact hs.advancePc.setMem (Memory.wf_writeLE _ hs.memoryForm ea v)
  | refused | unsupported | exited => exact hs.advancePc.setStatus _

/-- A layout whose last bit is fixed to 0 holds even offsets only (R68, R70). -/
theorem evenOffset_append_zero {n : Nat} (x : BitVec n) : evenOffset (x ++ 0#1) = true := by
  rw [evenOffset, BitVec.getLsbD_append]
  rfl

/-- The decoder builds even branch and JAL offsets only (R68, R70, R127). -/
theorem buildInstr_wellFormed (v : Variant) (w : InstrWord) : (buildInstr v w).wellFormed = true := by
  cases v
  case jal | beq | bne | blt | bge | bltu | bgeu => exact evenOffset_append_zero _
  all_goals rfl

theorem wellFormed_of_decode {w : InstrWord} {i : Instr} (h : decode w = .ok i) : i.wellFormed = true := by
  obtain ⟨_, v, _, _, rfl⟩ := decode_eq_ok_iff.1 h
  exact buildInstr_wellFormed v w

/-- Reset puts 0 in every register (R37). -/
@[simp] theorem reset_readReg (i : RegIdx) : State.reset.readReg i = 0#64 := by
  simp [State.readReg, State.reset, Config.resetRegister]

/-! ## The obligations -/

/-- Settles O30, by the front end's fault and every shape of an instruction's next state. -/
theorem stepKeepsInvariant : Obligations.StepKeepsInvariant := by
  intro s t hs hstep
  obtain ⟨-, hfault | ⟨i, hi, hexec⟩⟩ := step_next_cases hstep
  · obtain ⟨f, rfl | rfl⟩ := frontEnd_error hfault
    · exact hs.setStatus _
    · exact hs.advancePc.setStatus _
  · obtain ⟨-, -, hdecode⟩ := frontEnd_ok hi
    exact (shape_of_exec hexec).keeps_inv (wellFormed_of_decode hdecode) hs

/-- Settles O34: the two runs share their operands and their output, and differ in the register written back alone. -/
theorem writeToRegisterZeroIsDiscarded : Obligations.WriteToRegisterZeroIsDiscarded := by
  intro i d s hdest
  have hexec := exec_eq_stages i s
  have hexec' := exec_eq_stages (withDest i d) s
  rw [outputOf_withDest] at hexec'
  refine ⟨_, _, hexec, hexec', fun j => ?_, ?_⟩
  · by_cases hj : j = 0#5
    · rw [hj, readReg_zero, readReg_zero]
    · exact (shape_of_exec hexec).readReg_of_ne fun h => hj (Option.some.inj (h.symm.trans hdest))
  · have same : SameButRegs s.advancePc s.advancePc := ⟨rfl, rfl, rfl, rfl⟩
    have ha : (operandsOf (withDest i d) s).a = (operandsOf i s).a := by rw [operandsOf_a, operandsOf_a]
    obtain ⟨hpc, hstatus, hmem, -⟩ := same.stages ha (outputOf i s)
    exact ⟨hpc.symm, hstatus.symm, fun addr => by rw [State.byteAt, State.byteAt, hmem]⟩

/-- Settles O35, by the shapes of an instruction's next state. -/
theorem onlyTheDestinationRegisterChanges : Obligations.OnlyTheDestinationRegisterChanges :=
  fun _ _ _ _ hexec hdest => (shape_of_exec hexec).readReg_of_ne hdest

/-- Settles O38: the two runs share their operands, hence their output, so they differ in the registers alone and agree
on the one written back. -/
theorem noUnnamedRegisterIsRead : Obligations.NoUnnamedRegisterIsRead := by
  intro i s s' hrun hrun' hpc hmem hverdict hregs
  have same : SameButRegs s.advancePc s'.advancePc :=
    SameButRegs.advancePc ⟨hpc, hrun'.trans hrun.symm, hmem, hverdict⟩
  have hops : operandsOf i s' = operandsOf i s := operandsOf_congr hpc hregs
  have hexec' := exec_eq_stages i s'
  rw [outputOf, hops] at hexec'
  obtain ⟨hpc', hstatus', hmem', -⟩ := same.stages rfl (outputOf i s)
  refine ⟨_, _, exec_eq_stages i s, hexec', hpc', hstatus', hmem', fun hgoes d hd => ?_⟩
  have hvalue : (outputOf i s).yieldsValue = true := by rw [outputOf_yieldsValue, hd, Option.isSome_some]
  have hdest : (operandsOf i s).dest = d := by rw [operandsOf_dest, hd, Option.getD_some]
  exact hdest ▸ stages_readReg_dest same hvalue hgoes

/-- Settles O28. -/
theorem resetValues : Obligations.ResetValues := ⟨rfl, reset_readReg, rfl⟩

/-- Settles O29. -/
theorem invariantAtReset : Obligations.InvariantAtReset := ⟨rfl, by decide, rfl⟩

/-- Settles O33: the accessor never looks at slot 0. -/
theorem registerZeroReadsZero : Obligations.RegisterZeroReadsZero :=
  ⟨readReg_zero, fun _ _ => readReg_zero _, fun _ _ t _ => readReg_zero t, fun _ t _ => readReg_zero t⟩

end Sys2Proof.Machine
end

section
/-! SUPPORT. The memory port (20_memory.md): the forms in which a state holds the byte store and the verdict, what a step
leaves of both, accesses that read inside a stored value, and the proofs of the statements of that family. -/

namespace Sys2Proof.Machine

/-! ## The canonical form of the byte store -/

/-- An address that does not read as unlisted is listed, with the byte it reads as. -/
theorem Memory.mem_of_read_ne {m : Memory} {a : Nat} (h : m.read a ≠ Config.unlistedByte) : (a, m.read a) ∈ m := by
  induction m with
  | nil => exact absurd rfl h
  | cons c rest ih =>
    obtain ⟨k, b⟩ := c
    by_cases hk : k = a
    · simp [Memory.read, hk]
    · simp only [Memory.read, hk, if_false] at h ⊢
      exact List.mem_cons_of_mem _ (ih h)

/-- In canonical form the cells are the addresses that do not read as unlisted, each with the byte it reads as. -/
theorem Memory.mem_iff_read {m : Memory} (h : m.wf) (c : Host.Cell) :
    c ∈ m ↔ m.read c.1 = c.2 ∧ c.2 ≠ Config.unlistedByte where
  mp hc := ⟨Memory.read_of_mem h hc, (h.2 c hc).2⟩
  mpr hc := by
    obtain ⟨hread, hne⟩ := hc
    have hmem := Memory.mem_of_read_ne (hread.trans_ne hne)
    rwa [hread] at hmem

/-- A canonical form lists nothing from 2^64 up. -/
theorem Memory.read_of_ge {m : Memory} (h : m.wf) {a : Nat} (ha : 2 ^ 64 ≤ a) : m.read a = Config.unlistedByte := by
  by_contra hne
  exact absurd (h.2 _ (Memory.mem_of_read_ne hne)).1 (Nat.not_lt.2 ha)

/-- Canonical forms that read alike are the same list: they have the same cells, in the order of their addresses. -/
theorem Memory.eq_of_read_eq {m m' : Memory} (h : m.wf) (h' : m'.wf) (hread : ∀ a, m.read a = m'.read a) : m = m' := by
  have : Std.Antisymm fun c d : Host.Cell => c.1 < d.1 := ⟨fun _ _ hcd hdc => absurd hcd (Nat.lt_asymm hdc)⟩
  have : Std.Irrefl fun c d : Host.Cell => c.1 < d.1 := ⟨fun _ => Nat.lt_irrefl _⟩
  refine h.1.eq_of_mem_iff h'.1 fun c => ?_
  rw [Memory.mem_iff_read h, Memory.mem_iff_read h', hread]

/-- Writing an image byte by byte, from address 0 up, gives a canonical form that reads as it. -/
theorem Memory.exists_wf_read_eq (image : Nat → Byte) (n : Nat) (hn : n ≤ 2 ^ 64) :
    ∃ m : Memory, m.wf ∧ ∀ a, a < n → m.read a = image a := by
  induction n with
  | zero => exact ⟨[], ⟨.nil, by simp⟩, fun _ ha => absurd ha (Nat.not_lt_zero _)⟩
  | succ n ih =>
    obtain ⟨m, hwf, hread⟩ := ih (Nat.le_of_succ_le hn)
    refine ⟨m.write n (image n), Memory.wf_write hwf hn _, fun a ha => ?_⟩
    by_cases han : a = n
    · rw [han, Memory.read_write_same hwf]
    · rw [Memory.read_write_ne m _ han, hread a (by omega)]

/-! ## The table form of the verdict -/

/-- The row that admits one access only. -/
def onlyRow (kind : AccessKind) (addr : Word) (n : Width) : AdmitRow :=
  { kind := kind, width := n, first := addr, last := addr, align := 1 }

/-- What a row admits (R40; log 2). -/
theorem rowAdmits_iff {row : AdmitRow} {kind : AccessKind} {addr : Word} {n : Width} :
    rowAdmits row kind addr n = true ↔
      row.kind = kind ∧ row.width = n ∧ row.first ≤ addr ∧ addr ≤ row.last ∧ addr.toNat % row.align = 0 := by
  simp only [rowAdmits, Bool.and_eq_true, beq_iff_eq, decide_eq_true_eq, and_assoc]

theorem rowAdmits_onlyRow {kind kind' : AccessKind} {addr addr' : Word} {n n' : Width} :
    rowAdmits (onlyRow kind addr n) kind' addr' n' = true ↔ kind = kind' ∧ addr = addr' ∧ n = n' := by
  rw [rowAdmits_iff]
  constructor
  · rintro ⟨hkind, hwidth, hfirst, hlast, -⟩
    exact ⟨hkind, BitVec.le_antisymm hfirst hlast, hwidth⟩
  · rintro ⟨rfl, rfl, rfl⟩
    exact ⟨rfl, rfl, BitVec.le_refl _, BitVec.le_refl _, Nat.mod_one _⟩

/-- Some list holds every access the core can ask for. -/
theorem exists_all_accesses : ∃ accesses : List (AccessKind × Word × Width), ∀ kind addr n, (kind, addr, n) ∈ accesses := by
  refine ⟨[.fetch, .load, .store] ×ˢ ((Finset.univ : Finset Word).toList ×ˢ [.byte, .half, .word, .double]), ?_⟩
  intro kind addr n
  rw [List.mem_product, List.mem_product]
  exact ⟨by cases kind <;> simp, by simp, by cases n <;> simp⟩

/-- The table of the accesses of a list that a verdict function admits, one row for each. -/
def tableOf (accesses : List (AccessKind × Word × Width)) (verdict : AccessKind → Word → Width → Bool) : List AdmitRow :=
  (accesses.filter fun p => verdict p.1 p.2.1 p.2.2).map fun p => onlyRow p.1 p.2.1 p.2.2

/-- The table answers as the verdict function on every access of the list. -/
theorem memAdmit_tableOf {accesses : List (AccessKind × Word × Width)} (verdict : AccessKind → Word → Width → Bool)
    {kind : AccessKind} {addr : Word} {n : Width} (h : (kind, addr, n) ∈ accesses) :
    memAdmit (tableOf accesses verdict) kind addr n = verdict kind addr n := by
  rw [Bool.eq_iff_iff, memAdmit, tableOf, List.any_map, List.any_eq_true]
  constructor
  · rintro ⟨⟨kind', addr', n'⟩, hp, hrow⟩
    obtain ⟨rfl, rfl, rfl⟩ := rowAdmits_onlyRow.1 hrow
    exact (List.mem_filter.1 hp).2
  · exact fun hv => ⟨(kind, addr, n), List.mem_filter.2 ⟨h, hv⟩, rowAdmits_onlyRow.2 ⟨rfl, rfl, rfl⟩⟩

/-! ## What a step leaves of the memory port -/

/-- An instruction keeps the verdict (R40; log 2). -/
theorem ExecShape.verdict_eq {i : Instr} {s t : State} (shape : ExecShape i s t) : t.verdict = s.verdict := by
  cases shape <;> simp

/-- An instruction changes bytes of its admitted store access only (R43, R46, R147). -/
theorem ExecShape.store_of_byteAt_ne {i : Instr} {s t : State} (shape : ExecShape i s t) {addr : Word}
    (h : t.byteAt addr ≠ s.byteAt addr) :
    ∃ ea n, storeTo i s = some (ea, n) ∧ memAdmit s.verdict .store ea n = true ∧
      ∃ k, k < n.bytes ∧ addr = ea + BitVec.ofNat 64 k := by
  cases shape with
  | stored ea n v _ storesTo admitted =>
    refine ⟨ea, n, storesTo, admitted, ?_⟩
    by_contra! hout
    exact h (Memory.read_writeLE_other _ s.mem ea v hout)
  | wrote | linked | branched | passed | refused | unsupported | exited => exact absurd (by simp) h

/-- A step that answers next keeps the verdict. -/
theorem step_verdict {s t : State} (h : step s = .next t) : t.verdict = s.verdict := by
  obtain ⟨-, hfault | ⟨i, -, hexec⟩⟩ := step_next_cases h
  · obtain ⟨f, rfl | rfl⟩ := frontEnd_error hfault <;> rfl
  · exact (shape_of_exec hexec).verdict_eq

@[simp] theorem hostStep_verdict (s : State) : (hostStep s).verdict = s.verdict := by
  unfold hostStep
  split
  · exact step_verdict ‹_›
  · rfl
  · rfl

/-- A word that decodes is what a Running state runs, when the port admits its fetch (R90 to R92, R98). -/
theorem step_of_decode {s : State} {i : Instr} (hrun : s.status = .running) (heven : s.pc.getLsbD 0 = false)
    (hadmit : memAdmit s.verdict .fetch s.pc .word = true) (hdecode : decode (wordAt s s.pc) = .ok i) :
    step s = exec i s := by
  have hfront : frontEnd s = .ok i := by
    rw [frontEnd_eq, heven, hadmit, hdecode]
    rfl
  rw [step_running hrun, hfront]

/-! ## The same state at another memory port -/

/-- The state with another byte store and another verdict. -/
def State.withPort (s : State) (m : Memory) (verdict : List AdmitRow) : State := { s with mem := m, verdict := verdict }

@[simp] theorem withPort_mem (s : State) (m : Memory) (v : List AdmitRow) : (s.withPort m v).mem = m := rfl
@[simp] theorem withPort_verdict (s : State) (m : Memory) (v : List AdmitRow) : (s.withPort m v).verdict = v := rfl

theorem withPort_writeReg (s : State) (m : Memory) (verdict : List AdmitRow) (i : RegIdx) (v : Word) :
    (s.withPort m verdict).writeReg i v = (s.writeReg i v).withPort m verdict := by
  unfold State.writeReg
  split <;> rfl

theorem withPort_writeBack (s : State) (m : Memory) (verdict : List AdmitRow) (d : RegIdx) (result : Option Word) :
    writeBack (s.withPort m verdict) d result = (writeBack s d result).withPort m verdict := by
  cases result with
  | none => rfl
  | some v => exact withPort_writeReg ..

theorem withPort_commitPc (s : State) (m : Memory) (verdict : List AdmitRow) (target : Option Word) :
    commitPc (s.withPort m verdict) target = (commitPc s target).withPort m verdict := by
  cases target <;> rfl

theorem withPort_systemCall (s : State) (m : Memory) (verdict : List AdmitRow) (a : Word) (r : SysRequest) :
    systemCall (s.withPort m verdict) a r = (systemCall s a r).withPort m verdict := by
  unfold systemCall
  split <;> rfl

/-- The instruction asks the Execution Unit for no memory request (R46, R93). -/
theorem outputOf_memreq {i : Instr} (h : accessesMemory i = false) (s : State) : (outputOf i s).memreq = none := by
  have hbranch (cond : Word → Word → Bool) (d : DecodedRecord) : (unitBranch cond d).memreq = none := by
    unfold unitBranch
    split <;> rfl
  cases i
  case beq | bne | blt | bge | bltu | bgeu => exact hbranch ..
  case lb | lh | lw | ld | lbu | lhu | sb | sh | sw | sd => cases h
  all_goals rfl

/-- Without a memory request the stages after decode do the same at every memory port (R94). -/
theorem stages_withPort (s : State) (m : Memory) (verdict : List AdmitRow) (d : DecodedRecord) {o : ExecOut}
    (h : o.memreq = none) : stages (s.withPort m verdict) d o = (stages s d o).withPort m verdict := by
  obtain ⟨result, target, memreq, sysreq⟩ := o
  subst h
  cases sysreq with
  | some r => exact withPort_systemCall ..
  | none =>
    show commitPc (writeBack (s.withPort m verdict) d.dest result) target = _
    rw [withPort_writeBack, withPort_commitPc]
    rfl

/-- An instruction without a memory access does the same at every memory port (R46). -/
theorem exec_withPort {i : Instr} (h : accessesMemory i = false) (s : State) (m : Memory) (verdict : List AdmitRow) :
    exec i (s.withPort m verdict) =
      .next ((stages s.advancePc (operandsOf i s) (outputOf i s)).withPort m verdict) := by
  have hops : operandsOf i (s.withPort m verdict) = operandsOf i s := operandsOf_congr rfl fun _ _ => rfl
  rw [exec_eq_stages, outputOf, hops]
  exact congrArg _ (stages_withPort s.advancePc m verdict _ (outputOf_memreq h s))

/-! ## Reads inside a stored value -/

/-- A multi-byte value is its bytes. -/
theorem eq_of_bytes_eq {n : Nat} {x y : BitVec (8 * n)}
    (h : ∀ i, i < n → x.extractLsb' (8 * i) 8 = y.extractLsb' (8 * i) 8) : x = y := by
  ext j hj
  have hbyte := congrArg (fun b : Byte => b.getLsbD (j % 8)) (h (j / 8) (by omega))
  simpa [BitVec.getLsbD_extractLsb', Nat.mod_lt, Nat.div_add_mod, BitVec.getLsbD_eq_getElem, hj] using hbyte

/-- A read of `n` bytes at offset `k` inside a stored value gives those bytes of it, the lowest address lowest (R42 to
R44; D3). -/
theorem StoredAt.readLE {s t : State} {ea v pc' : Word} {size : Nat} (h : StoredAt s t ea size v pc') {k n : Nat}
    (hin : k + n ≤ size) : t.mem.readLE (ea + BitVec.ofNat 64 k) n = v.extractLsb' (8 * k) (8 * n) := by
  refine eq_of_bytes_eq fun i hi => ?_
  calc (t.mem.readLE (ea + BitVec.ofNat 64 k) n).extractLsb' (8 * i) 8
      = t.byteAt (ea + BitVec.ofNat 64 (k + i)) := by
        rw [Memory.readLE_byte _ _ _ hi, BitVec.add_assoc, ← BitVec.ofNat_add]
        rfl
    _ = v.extractLsb' (8 * (k + i)) 8 := h.stored _ (by omega)
    _ = (v.extractLsb' (8 * k) (8 * n)).extractLsb' (8 * i) 8 := by
        ext j hj
        simp only [BitVec.getElem_extractLsb', BitVec.getLsbD_extractLsb']
        rw [decide_eq_true (by omega), Bool.true_and, Nat.mul_add, Nat.add_assoc]

/-- A stored word is the instruction word at its address (R41, R54; D18). -/
theorem StoredAt.wordAt {s t : State} {ea v pc' : Word} (h : StoredAt s t ea 4 v pc') :
    wordAt t ea = v.extractLsb' 0 32 := by
  have h0 : t.byteAt ea = v.extractLsb' 0 8 := by simpa using h.stored 0 (by omega)
  rw [Machine.wordAt, h.stored 3 (by omega), h.stored 2 (by omega), h.stored 1 (by omega), h0,
    BitVec.extractLsb'_append_extractLsb'_eq_extractLsb', BitVec.extractLsb'_append_extractLsb'_eq_extractLsb',
    BitVec.extractLsb'_append_extractLsb'_eq_extractLsb'] <;> rfl

/-- A store instruction the port admits leaves its value stored (R43, R147). -/
theorem storedAt_of_admitted {i : Instr} {s t : State} {ea v : Word} {n : Width} {f : FaultRecord}
    (hstore : exec i s = .next (if memAdmit s.verdict .store ea n
      then s.advancePc.setMem (s.mem.writeLE ea n.bytes (v.setWidth (8 * n.bytes))) else s.advancePc.raiseFault f))
    (hwf : s.mem.wf) (hadmit : memAdmit s.verdict .store ea n = true) (hexec : exec i s = .next t) :
    StoredAt s t ea n.bytes v (s.pc + 4#64) := by
  rw [hstore, if_pos hadmit] at hexec
  injection hexec with hexec
  exact hexec ▸ storedAt_writeLE hwf ea n v

/-! ## The obligations -/

/-- Settles O32, by the two ways a step answers next and by induction on the fuel. -/
theorem verdictNeverChanges : Obligations.VerdictNeverChanges := by
  refine ⟨fun _ _ => step_verdict, fun s fuel => ?_⟩
  induction fuel generalizing s with
  | zero => rfl
  | succ fuel ih =>
    unfold hostRun
    split
    · rw [ih, hostStep_verdict]
    · rfl
    · rfl

/-- Settles O36: a front-end fault changes no byte, and an instruction only those of its admitted store. -/
theorem onlyStoresChangeMemory : Obligations.OnlyStoresChangeMemory := by
  intro s t addr hstep hne
  obtain ⟨-, hfault | ⟨i, hi, hexec⟩⟩ := step_next_cases hstep
  · obtain ⟨f, rfl | rfl⟩ := frontEnd_error hfault <;> exact absurd rfl hne
  · obtain ⟨-, -, hdecode⟩ := frontEnd_ok hi
    obtain ⟨ea, n, hstore⟩ := (shape_of_exec hexec).store_of_byteAt_ne hne
    exact ⟨i, ea, n, hdecode, hstore⟩

/-- Settles O37: at the state's own port, too, the instruction leaves the port as it was. -/
theorem nonMemoryInstructionsIgnoreMemory : Obligations.NonMemoryInstructionsIgnoreMemory := by
  intro i s m verdict h
  exact ⟨_, exec_withPort h s s.mem s.verdict, withPort_mem .., withPort_verdict .., exec_withPort h s m verdict⟩

/-- Settles O41. -/
theorem narrowReadsInsideStoredDouble : Obligations.NarrowReadsInsideStoredDouble := by
  intro s t rs1 rs2 imm a k n hwf hstore hload hin hexec
  have hstored : StoredAt s t (s.readReg rs1 + imm.signExtend 64) 8 (s.readReg rs2) (s.pc + 4#64) :=
    storedAt_of_admitted (exec_sd ..) hwf hstore hexec
  rw [memRead, hstored.verdict, if_pos hload, hstored.readLE hin]

/-- Settles O42: the stored word stands at the pc the store leaves, and it is the word that step fetches. -/
theorem nextFetchSeesTheStore : Obligations.NextFetchSeesTheStore := by
  intro s t rs1 rs2 imm i hwf hrun heven hnext hstore hfetch hdecode hexec
  have hstored : StoredAt s t (s.readReg rs1 + imm.signExtend 64) 4 (s.readReg rs2) (s.pc + 4#64) :=
    storedAt_of_admitted (exec_sw ..) hwf (hnext ▸ hstore) hexec
  rw [hnext] at hstored
  refine step_of_decode (hstored.status.trans hrun) ?_ ?_ ?_
  · rw [hstored.pc]
    exact even_add heven rfl
  · rwa [hstored.verdict, hstored.pc]
  · rwa [hstored.pc, hstored.wordAt]

/-- Settles O43: below 2^64 the two read alike by hypothesis, and from there up both read as unlisted. -/
theorem canonicalFormIsUnique : Obligations.CanonicalFormIsUnique := by
  intro m m' h h' hread
  refine Memory.eq_of_read_eq h h' fun a => ?_
  by_cases ha : a < 2 ^ 64
  · have hbyte := hread (BitVec.ofNat 64 a)
    rwa [BitVec.toNat_ofNat, Nat.mod_eq_of_lt ha] at hbyte
  · rw [Memory.read_of_ge h (Nat.le_of_not_lt ha), Memory.read_of_ge h' (Nat.le_of_not_lt ha)]

/-- Settles O44, by writing the image address by address. -/
theorem everyImageIsSomeMemory : Obligations.EveryImageIsSomeMemory := by
  intro image
  obtain ⟨m, hwf, hread⟩ := Memory.exists_wf_read_eq (fun a => image (BitVec.ofNat 64 a)) (2 ^ 64) le_rfl
  exact ⟨m, hwf, fun addr => by rw [hread _ addr.isLt, BitVec.ofNat_toNat, BitVec.setWidth_eq]⟩

/-- Settles O45, by one row for each access the verdict function admits. -/
theorem everyVerdictIsSomeTable : Obligations.EveryVerdictIsSomeTable := by
  intro verdict
  obtain ⟨accesses, hall⟩ := exists_all_accesses
  exact ⟨tableOf accesses verdict, fun kind addr n => memAdmit_tableOf verdict (hall kind addr n)⟩

/-- Settles O23: the front end's second case. -/
theorem refusedFetchFaults : Obligations.RefusedFetchFaults := by
  intro s hrun heven hrefused
  have hfront : frontEnd s = .error (s.raiseFault (.memoryFault s.pc .fetch s.pc .word)) := by
    rw [frontEnd_eq, heven, hrefused]
    rfl
  refine ⟨_, by rw [step_running hrun, hfront], ?_⟩
  exact ⟨fun _ => rfl, rfl, fun _ => rfl, rfl, rfl⟩

end Sys2Proof.Machine
end

section
/-! SUPPORT. Encoding (30_encoding.md): the rows of the opcode table against the dispatch tables, the two round trips of
encoder and decoder, the cases of a word, the ranges of the immediates, what a step does with a word that is no
instruction, and the proofs of the statements of that family. -/

namespace Sys2Proof

/-! ## A row of the opcode table and the dispatch tables -/

/-- The word has the bits that the variant's row of the opcode table fixes. -/
def InRow (w : InstrWord) (v : Variant) : Prop := w &&& v.maskBits = v.matchBits

/-- Where the mask of a row is all ones, a word of the row has the bits of the row's `match`. -/
theorem extractLsb'_of_row {w mask m : InstrWord} {start len : Nat} (h : w &&& mask = m)
    (hmask : mask.extractLsb' start len = BitVec.allOnes len) : w.extractLsb' start len = m.extractLsb' start len := by
  rw [← h, BitVec.extractLsb'_and, hmask, BitVec.and_allOnes]

/-- A word is its upper 25 bits and its opcode. -/
theorem word_of_opcode (w : InstrWord) : (w.extractLsb' 7 25 ++ opcodeOf w : InstrWord) = w := by
  rw [opcodeOf, BitVec.extractLsb'_append_extractLsb'_eq_extractLsb' (by rfl)]
  exact BitVec.extractLsb'_eq_self

section Fields
variable {w m : InstrWord}

/-! The fields that each mask of the opcode table fixes, and the layout of R62 to R65 that they make with the operand
fields. -/

theorem opcode_of_row (h : w &&& 0x0000007F#32 = m) : opcodeOf w = opcodeOf m := extractLsb'_of_row h rfl

theorem funct3_of_row (h : w &&& 0x0000707F#32 = m) : opcodeOf w = opcodeOf m ∧ funct3Of w = funct3Of m :=
  ⟨extractLsb'_of_row h rfl, extractLsb'_of_row h rfl⟩

theorem funct6_of_row (h : w &&& 0xFC00707F#32 = m) :
    opcodeOf w = opcodeOf m ∧ funct3Of w = funct3Of m ∧ w.extractLsb' 26 6 = m.extractLsb' 26 6 :=
  ⟨extractLsb'_of_row h rfl, extractLsb'_of_row h rfl, extractLsb'_of_row h rfl⟩

theorem funct7_of_row (h : w &&& 0xFE00707F#32 = m) :
    opcodeOf w = opcodeOf m ∧ funct3Of w = funct3Of m ∧ funct7Of w = funct7Of m :=
  ⟨extractLsb'_of_row h rfl, extractLsb'_of_row h rfl, extractLsb'_of_row h rfl⟩

theorem rType_of_row (h : w &&& 0xFE00707F#32 = m) :
    rType (funct7Of m) (rs2Of w) (rs1Of w) (funct3Of m) (rdOf w) (opcodeOf m) = w := by
  obtain ⟨hop, hf3, hf7⟩ := funct7_of_row h
  rw [← hop, ← hf3, ← hf7, rType_of_fields]

theorem shiftType_of_row (h : w &&& 0xFC00707F#32 = m) :
    shiftType (m.extractLsb' 26 6) (shamtOf w) (rs1Of w) (funct3Of m) (rdOf w) (opcodeOf m) = w := by
  obtain ⟨hop, hf3, hf6⟩ := funct6_of_row h
  rw [← hop, ← hf3, ← hf6, shiftType_of_fields]

theorem iType_of_row (h : w &&& 0x0000707F#32 = m) :
    iType (fieldI w) (rs1Of w) (funct3Of m) (rdOf w) (opcodeOf m) = w := by
  obtain ⟨hop, hf3⟩ := funct3_of_row h
  rw [← hop, ← hf3, iType_of_fields]

theorem sType_of_row (h : w &&& 0x0000707F#32 = m) :
    sType (fieldS w) (rs2Of w) (rs1Of w) (funct3Of m) (opcodeOf m) = w := by
  obtain ⟨hop, hf3⟩ := funct3_of_row h
  rw [← hop, ← hf3, sType_of_fields]

theorem bType_of_row (h : w &&& 0x0000707F#32 = m) :
    bType (fieldB w) (rs2Of w) (rs1Of w) (funct3Of m) (opcodeOf m) = w := by
  obtain ⟨hop, hf3⟩ := funct3_of_row h
  rw [← hop, ← hf3, bType_of_fields]

theorem uType_of_row (h : w &&& 0x0000007F#32 = m) : uType (fieldU w) (rdOf w) (opcodeOf m) = w := by
  rw [← opcode_of_row h, uType_of_fields]

theorem jType_of_row (h : w &&& 0x0000007F#32 = m) : jType (fieldJ w) (rdOf w) (opcodeOf m) = w := by
  rw [← opcode_of_row h, jType_of_fields]

end Fields

/-- A word of a row is one that the dispatch tables of R73 to R80 send to the row's variant. -/
theorem dispatch_of_row {w : InstrWord} {v : Variant} (h : InRow w v) :
    ∃ f : Family, opcodeOf w = f.opcode ∧ variantIn f w = some v := by
  cases v
  case lui => exact ⟨.lui, opcode_of_row h, rfl⟩
  case auipc => exact ⟨.auipc, opcode_of_row h, rfl⟩
  case jal => exact ⟨.jal, opcode_of_row h, rfl⟩
  case jalr =>
    obtain ⟨hop, hf3⟩ := funct3_of_row h
    exact ⟨.jalr, hop, by rw [variantIn, hf3]; rfl⟩
  case beq | bne | blt | bge | bltu | bgeu =>
    obtain ⟨hop, hf3⟩ := funct3_of_row h
    exact ⟨.branch, hop, by rw [variantIn, hf3]; rfl⟩
  case lb | lh | lw | ld | lbu | lhu =>
    obtain ⟨hop, hf3⟩ := funct3_of_row h
    exact ⟨.load, hop, by rw [variantIn, hf3]; rfl⟩
  case sb | sh | sw | sd =>
    obtain ⟨hop, hf3⟩ := funct3_of_row h
    exact ⟨.store, hop, by rw [variantIn, hf3]; rfl⟩
  case addi | slti | sltiu | xori | ori | andi =>
    obtain ⟨hop, hf3⟩ := funct3_of_row h
    exact ⟨.opImm, hop, by rw [variantIn, hf3]; rfl⟩
  case slli | srli | srai =>
    obtain ⟨hop, hf3, hf6⟩ := funct6_of_row h
    exact ⟨.opImm, hop, by rw [variantIn, hf3, hf6]; rfl⟩
  case addiw =>
    obtain ⟨hop, hf3⟩ := funct3_of_row h
    exact ⟨.opImm32, hop, by rw [variantIn, hf3]; rfl⟩
  case ecall =>
    obtain rfl : w = 0x00000073#32 := BitVec.and_allOnes.symm.trans h
    exact ⟨.system, rfl, rfl⟩
  case add | sub | sll | slt | sltu | xor | srl | sra | or | and | mul | mulh | div | rem =>
    obtain ⟨hop, hf3, hf7⟩ := funct7_of_row h
    exact ⟨.op, hop, by rw [variantIn, hf3, hf7]; rfl⟩

/-- A word that the dispatch tables send to a variant has the bits the variant's row fixes. -/
theorem row_of_dispatch {w : InstrWord} {f : Family} {v : Variant} (hop : opcodeOf w = f.opcode)
    (hv : variantIn f w = some v) : InRow w v := by
  unfold InRow
  cases f
  case lui | auipc | jal =>
    cases hv
    rw [Variant.maskBits, and_mask_opcode, hop]
    rfl
  case load | store | branch =>
    simp only [variantIn, variantLoad, variantStore, variantBranch] at hv
    split at hv <;> cases hv <;> rw [Variant.maskBits, and_mask_funct3, hop, ‹funct3Of w = _›] <;> rfl
  case jalr | opImm32 =>
    simp only [variantIn] at hv
    split at hv <;> cases hv
    rw [Variant.maskBits, and_mask_funct3, hop, ‹funct3Of w = _›]
    rfl
  case op =>
    simp only [variantIn, variantOp] at hv
    split at hv <;> cases hv <;>
      rw [Variant.maskBits, and_mask_funct7, hop, ‹funct3Of w = _›, ‹funct7Of w = _›] <;> rfl
  case opImm =>
    simp only [variantIn, variantOpImm] at hv
    split at hv
    case h_7 | h_8 => -- the shifts, told apart by funct6
      repeat' split at hv
      all_goals cases hv <;>
        rw [Variant.maskBits, and_mask_funct6, hop, ‹funct3Of w = _›, ‹w.extractLsb' 26 6 = _›] <;> rfl
    all_goals cases hv <;> rw [Variant.maskBits, and_mask_funct3, hop, ‹funct3Of w = _›] <;> rfl
  case system =>
    simp only [variantIn] at hv
    split at hv <;> cases hv
    rw [← word_of_opcode w, hop, ‹w.extractLsb' 7 25 = _›]
    rfl

/-! ## Decoding by rows -/

theorem decode_of_row {w : InstrWord} {v : Variant} (h : InRow w v) : decode w = .ok (buildInstr v w) := by
  obtain ⟨f, hop, hv⟩ := dispatch_of_row h
  exact decode_eq_ok_iff.2 ⟨f, v, hop, hv, rfl⟩

theorem row_of_decode {w : InstrWord} {i : Instr} (h : decode w = .ok i) : ∃ v, InRow w v ∧ i = buildInstr v w := by
  obtain ⟨f, v, hop, hv, rfl⟩ := decode_eq_ok_iff.1 h
  exact ⟨v, row_of_dispatch hop hv, rfl⟩

theorem decode_variant_iff {w : InstrWord} {v : Variant} : (∃ i, decode w = .ok i ∧ i.variant = v) ↔ InRow w v := by
  constructor
  · rintro ⟨i, hi, rfl⟩
    obtain ⟨v, hrow, rfl⟩ := row_of_decode hi
    rwa [buildInstr_variant]
  · exact fun h => ⟨_, decode_of_row h, buildInstr_variant v w⟩

/-- Two rows of one word would both be what it decodes to. -/
theorem row_unique {w : InstrWord} {v v' : Variant} (h : InRow w v) (h' : InRow w v') : v = v' := by
  have hbuilt : Except.ok (buildInstr v w) = Except.ok (buildInstr v' w) :=
    (decode_of_row h).symm.trans (decode_of_row h')
  injection hbuilt with hbuilt
  rw [← buildInstr_variant v w, hbuilt, buildInstr_variant]

/-! ## The two round trips -/

theorem evenOffset_iff {n : Nat} {offset : BitVec n} : evenOffset offset = true ↔ offset.getLsbD 0 = false := by
  rw [evenOffset, Bool.not_eq_true']

/-- Every instruction's word is in its variant's row. -/
theorem encode_inRow : ∀ i : Instr, InRow (encode i) i.variant
  | .lui .. => Laws.EncodedRow.lui ..
  | .auipc .. => Laws.EncodedRow.auipc ..
  | .jal .. => Laws.EncodedRow.jal ..
  | .jalr .. => Laws.EncodedRow.jalr ..
  | .beq .. => Laws.EncodedRow.beq ..
  | .bne .. => Laws.EncodedRow.bne ..
  | .blt .. => Laws.EncodedRow.blt ..
  | .bge .. => Laws.EncodedRow.bge ..
  | .bltu .. => Laws.EncodedRow.bltu ..
  | .bgeu .. => Laws.EncodedRow.bgeu ..
  | .lb .. => Laws.EncodedRow.lb ..
  | .lh .. => Laws.EncodedRow.lh ..
  | .lw .. => Laws.EncodedRow.lw ..
  | .ld .. => Laws.EncodedRow.ld ..
  | .lbu .. => Laws.EncodedRow.lbu ..
  | .lhu .. => Laws.EncodedRow.lhu ..
  | .sb .. => Laws.EncodedRow.sb ..
  | .sh .. => Laws.EncodedRow.sh ..
  | .sw .. => Laws.EncodedRow.sw ..
  | .sd .. => Laws.EncodedRow.sd ..
  | .addi .. => Laws.EncodedRow.addi ..
  | .slti .. => Laws.EncodedRow.slti ..
  | .sltiu .. => Laws.EncodedRow.sltiu ..
  | .xori .. => Laws.EncodedRow.xori ..
  | .ori .. => Laws.EncodedRow.ori ..
  | .andi .. => Laws.EncodedRow.andi ..
  | .slli .. => Laws.EncodedRow.slli ..
  | .srli .. => Laws.EncodedRow.srli ..
  | .srai .. => Laws.EncodedRow.srai ..
  | .add .. => Laws.EncodedRow.add ..
  | .sub .. => Laws.EncodedRow.sub ..
  | .sll .. => Laws.EncodedRow.sll ..
  | .slt .. => Laws.EncodedRow.slt ..
  | .sltu .. => Laws.EncodedRow.sltu ..
  | .xor .. => Laws.EncodedRow.xor ..
  | .srl .. => Laws.EncodedRow.srl ..
  | .sra .. => Laws.EncodedRow.sra ..
  | .or .. => Laws.EncodedRow.or ..
  | .and .. => Laws.EncodedRow.and ..
  | .ecall => Laws.EncodedRow.ecall
  | .addiw .. => Laws.EncodedRow.addiw ..
  | .mul .. => Laws.EncodedRow.mul ..
  | .mulh .. => Laws.EncodedRow.mulh ..
  | .div .. => Laws.EncodedRow.div ..
  | .rem .. => Laws.EncodedRow.rem ..

/-- The operand fields of an instruction's word are the instruction's operands. -/
theorem buildInstr_encode {i : Instr} (h : i.wellFormed = true) : buildInstr i.variant (encode i) = i := by
  cases i
  case ecall => rfl
  case lui | auipc => simp only [Instr.variant, encode, buildInstr, uType_rd, uType_imm]
  case jal rd offset =>
    simp only [Instr.variant, encode, buildInstr, jType_rd, jType_imm _ _ _ (evenOffset_iff.1 h)]
  case beq rs1 rs2 offset | bne rs1 rs2 offset | blt rs1 rs2 offset | bge rs1 rs2 offset | bltu rs1 rs2 offset
    | bgeu rs1 rs2 offset =>
    simp only [Instr.variant, encode, buildInstr, bType_rs1, bType_rs2, bType_imm _ _ _ _ _ (evenOffset_iff.1 h)]
  case sb | sh | sw | sd => simp only [Instr.variant, encode, buildInstr, sType_rs1, sType_rs2, sType_imm]
  case slli | srli | srai =>
    simp only [Instr.variant, encode, buildInstr, shiftType_rd, shiftType_rs1, shiftType_shamt]
  case jalr | lb | lh | lw | ld | lbu | lhu | addi | slti | sltiu | xori | ori | andi | addiw =>
    simp only [Instr.variant, encode, buildInstr, iType_rd, iType_rs1, iType_imm]
  case add | sub | sll | slt | sltu | xor | srl | sra | or | and | mul | mulh | div | rem =>
    simp only [Instr.variant, encode, buildInstr, rType_rd, rType_rs1, rType_rs2]

/-- A word of a row is the layout of its operand fields and the row's fixed bits, so no bit of it is dropped. -/
theorem encode_buildInstr {v : Variant} {w : InstrWord} (h : InRow w v) : encode (buildInstr v w) = w := by
  cases v
  case ecall => exact (BitVec.and_allOnes.symm.trans h).symm
  case lui | auipc => exact (uType_of_row h :)
  case jal => exact (jType_of_row h :)
  case beq | bne | blt | bge | bltu | bgeu => exact (bType_of_row h :)
  case sb | sh | sw | sd => exact (sType_of_row h :)
  case slli | srli | srai => exact (shiftType_of_row h :)
  case jalr | lb | lh | lw | ld | lbu | lhu | addi | slti | sltiu | xori | ori | andi | addiw =>
    exact (iType_of_row h :)
  case add | sub | sll | slt | sltu | xor | srl | sra | or | and | mul | mulh | div | rem =>
    exact (rType_of_row h :)

/-! ## The cases of a word -/

theorem isFourByte_iff {w : InstrWord} : isFourByte w = true ↔ w.extractLsb' 0 2 = 0b11#2 := by
  rw [isFourByte, beq_iff_eq]

theorem decode_of_short {w : InstrWord} (h : w.extractLsb' 0 2 ≠ 0b11#2) : decode w = .error .compressed := by
  rw [decode, if_neg (mt isFourByte_iff.1 h)]

theorem decode_of_no_family {w : InstrWord} (hlong : w.extractLsb' 0 2 = 0b11#2)
    (h : ∀ f : Family, opcodeOf w ≠ f.opcode) : decode w = .error .unknownOpcode := by
  have hnone : familyOf (opcodeOf w) = none :=
    Option.eq_none_iff_forall_ne_some.2 fun f hf => h f (opcode_of_familyOf hf)
  rw [decode, if_pos (isFourByte_iff.2 hlong), hnone]

theorem decode_of_no_row {w : InstrWord} {f : Family} (hop : opcodeOf w = f.opcode) (h : ∀ v, ¬InRow w v) :
    decode w = .error .unknownFunct := by
  have hnone : variantIn f w = none :=
    Option.eq_none_iff_forall_ne_some.2 fun v hv => h v (row_of_dispatch hop hv)
  rw [decode_of_family hop, hnone]

/-- What R86 says of a word, with what the decoder answers in each case. -/
inductive Reading (w : InstrWord) : Except DecodeError Instr → Prop where
  /-- A 16-bit word (R60). -/
  | compressed (short : w.extractLsb' 0 2 ≠ 0b11#2) : Reading w (.error .compressed)
  /-- The opcode is no family's (R83). -/
  | unknownOpcode (long : w.extractLsb' 0 2 = 0b11#2) (noFamily : ∀ f : Family, opcodeOf w ≠ f.opcode) :
      Reading w (.error .unknownOpcode)
  /-- The opcode is a family's and the word is in no row (R84). -/
  | unknownFunct (f : Family) (family : opcodeOf w = f.opcode) (noRow : ∀ v, ¬InRow w v) :
      Reading w (.error .unknownFunct)
  /-- The word is in a variant's row. -/
  | instruction (v : Variant) (row : InRow w v) : Reading w (.ok (buildInstr v w))

/-- Every word has a reading, and it is the decoder's answer. -/
theorem reading_of_decode {w : InstrWord} {answer : Except DecodeError Instr} (h : decode w = answer) :
    Reading w answer := by
  subst h
  by_cases hlong : w.extractLsb' 0 2 = 0b11#2
  · by_cases hfamily : ∃ f : Family, opcodeOf w = f.opcode
    · obtain ⟨f, hop⟩ := hfamily
      by_cases hrow : ∃ v, InRow w v
      · obtain ⟨v, hrow⟩ := hrow
        exact decode_of_row hrow ▸ .instruction v hrow
      · have hnone : ∀ v, ¬InRow w v := not_exists.1 hrow
        exact decode_of_no_row hop hnone ▸ .unknownFunct f hop hnone
    · have hnone : ∀ f : Family, opcodeOf w ≠ f.opcode := not_exists.1 hfamily
      exact decode_of_no_family hlong hnone ▸ .unknownOpcode hlong hnone
  · exact decode_of_short hlong ▸ .compressed hlong

/-! ## The ranges of the immediates -/

/-- An immediate with `k` implicit zero bits is a multiple of `2 ^ k` (R68 to R70). -/
theorem toInt_signExtend_append_zero {n k : Nat} (h : n + k ≤ 64) (x : BitVec n) :
    ((x ++ 0#k).signExtend 64).toInt = 2 ^ k * x.toInt := by
  rw [BitVec.toInt_signExtend_of_le h, BitVec.toInt_append_zero]

theorem sext12_range (imm : BitVec 12) : -2048 ≤ (sext12 imm).toInt ∧ (sext12 imm).toInt ≤ 2047 := by
  have := imm.le_toInt
  have := imm.toInt_lt
  rw [sext12, BitVec.toInt_signExtend_of_le (by decide)]
  omega

theorem immB_range (w : InstrWord) : (immB w).toInt % 2 = 0 ∧ -4096 ≤ (immB w).toInt ∧ (immB w).toInt ≤ 4094 := by
  obtain ⟨x, hx⟩ : ∃ x : BitVec 12, fieldB w = x ++ 0#1 := ⟨_, rfl⟩
  have := x.le_toInt
  have := x.toInt_lt
  rw [immB, sextB, hx, toInt_signExtend_append_zero (by decide)]
  omega

theorem immU_range (w : InstrWord) :
    (immU w).toInt % 4096 = 0 ∧ -2 ^ 31 ≤ (immU w).toInt ∧ (immU w).toInt ≤ 2 ^ 31 - 4096 := by
  have := (fieldU w).le_toInt
  have := (fieldU w).toInt_lt
  rw [immU, placeU, toInt_signExtend_append_zero (by decide)]
  omega

theorem immJ_range (w : InstrWord) :
    (immJ w).toInt % 2 = 0 ∧ -2 ^ 20 ≤ (immJ w).toInt ∧ (immJ w).toInt ≤ 2 ^ 20 - 2 := by
  obtain ⟨x, hx⟩ : ∃ x : BitVec 20, fieldJ w = x ++ 0#1 := ⟨_, rfl⟩
  have := x.le_toInt
  have := x.toInt_lt
  rw [immJ, sextJ, hx, toInt_signExtend_append_zero (by decide)]
  omega

/-- Truncating a sign extension is extending, or truncating, to that width. -/
theorem setWidth_signExtend_of_le {n m k : Nat} (h : k ≤ m) (x : BitVec n) :
    (x.signExtend m).setWidth k = x.signExtend k := by
  ext i hi
  rw [BitVec.getElem_setWidth, BitVec.getLsbD_signExtend, BitVec.getElem_signExtend, decide_eq_true (by omega)]
  by_cases hn : i < n <;> simp [hn]

/-- The shift amount is the low 6 bits of the I-immediate (R71). -/
theorem setWidth_immI (w : InstrWord) : (immI w).setWidth 6 = shamtOf w := by
  rw [immI, sext12, setWidth_signExtend_of_le (by decide), BitVec.signExtend_eq_setWidth_of_le _ (by decide), fieldI,
    BitVec.setWidth_extractLsb'_of_le (by decide), shamtOf]

theorem zextShamt_toNat (shamt : BitVec 6) : (zextShamt shamt).toNat = shamt.toNat := by
  rw [zextShamt, BitVec.toNat_setWidth_of_le (by decide)]

theorem shamtI_eq (w : InstrWord) : shamtI w = immI w &&& 0x3F#64 := by
  apply BitVec.eq_of_toNat_eq
  rw [shamtI, zextShamt_toNat, ← setWidth_immI, BitVec.toNat_setWidth, BitVec.toNat_and]
  exact (Nat.and_two_pow_sub_one_eq_mod _ 6).symm

theorem shamtI_le (w : InstrWord) : (shamtI w).toNat ≤ 63 := by
  rw [shamtI, zextShamt_toNat]
  exact Nat.le_of_lt_succ (shamtOf w).isLt

/-! ## The two parts of a 32-bit immediate -/

theorem lo12_toNat (imm : BitVec 32) : (lo12 imm).toNat = imm.toNat % 2 ^ 12 := by
  rw [lo12, BitVec.extractLsb'_toNat, Nat.shiftRight_zero]

theorem hi20_toNat (imm : BitVec 32) :
    (hi20 imm).toNat = (imm.toNat / 2 ^ 12 + imm.toNat / 2 ^ 11 % 2) % 2 ^ 20 := by
  simp only [hi20, BitVec.toNat_add, BitVec.toNat_setWidth, BitVec.extractLsb'_toNat, Nat.shiftRight_eq_div_pow]
  omega

/-- The upper and the lower part of a value, the lower one sign-extended, sum to it: `hi20` carries the borrow that a
negative `lo12` leaves (R89). -/
theorem hi20_add_lo12 (imm : BitVec 32) : (hi20 imm ++ 0#12) + (lo12 imm).signExtend 32 = imm := by
  apply BitVec.eq_of_toNat_eq
  rw [BitVec.toNat_add, BitVec.toNat_append, BitVec.toNat_ofNat, Nat.zero_mod, Nat.or_zero, Nat.shiftLeft_eq,
    hi20_toNat, BitVec.toNat_signExtend, BitVec.toNat_setWidth_of_le (by decide), BitVec.msb_eq_decide, lo12_toNat]
  have := imm.isLt
  simp only [decide_eq_true_eq]
  split <;> omega

end Sys2Proof

namespace Sys2Proof.Machine

/-! ## A step at a word that is no instruction -/

/-- A fault raised where the pc stands changes the status only (R162). -/
theorem movedTo_raiseFault_here (s : State) (f : FaultRecord) : MovedTo s (s.raiseFault f) s.pc (.faulted f) :=
  ⟨fun _ => rfl, rfl, fun _ => rfl, rfl, rfl⟩

/-- A fetched word that the decoder rejects ends the run, with the pc past the word when it is a 4-byte one (R91,
R92). -/
theorem step_of_rejected {s : State} {e : DecodeError} (hrun : s.status = .running) (heven : s.pc.getLsbD 0 = false)
    (hadmit : memAdmit s.verdict .fetch s.pc .word = true) (hdecode : decode (wordAt s s.pc) = .error e) :
    step s = .next ((if isFourByte (wordAt s s.pc) then s.advancePc else s).raiseFault
      (decodeFault s.pc (wordAt s s.pc) e)) := by
  have hfront : frontEnd s = .error ((if isFourByte (wordAt s s.pc) then s.advancePc else s).raiseFault
      (decodeFault s.pc (wordAt s s.pc) e)) := by
    rw [frontEnd_eq, heven, hadmit, hdecode]
    rfl
  rw [step_running hrun, hfront]

/-- The faults of the front end (R90 to R92): the pc check's, the refused fetch's, and the decoder's. -/
theorem frontEnd_error_status {s t : State} (h : frontEnd s = .error t) :
    t.status = .faulted (.misalignedProgramCounter s.pc) ∨
    t.status = .faulted (.memoryFault s.pc .fetch s.pc .word) ∨
    ∃ e, decode (wordAt s s.pc) = .error e ∧ t.status = .faulted (decodeFault s.pc (wordAt s s.pc) e) := by
  rw [frontEnd_eq] at h
  split at h
  · injection h with h
    exact .inl (h ▸ rfl)
  · split at h
    · cases hdecode : decode (wordAt s s.pc) with
      | ok i =>
        rw [hdecode] at h
        cases h
      | error e =>
        rw [hdecode] at h
        injection h with h
        exact .inr (.inr ⟨e, rfl, h ▸ rfl⟩)
    · injection h with h
      exact .inr (.inl (h ▸ rfl))

/-- The decoder rejects no word by its self-check, so no rejection is recorded as one (R85; D25). -/
theorem decodeFault_ne_consistency {w : InstrWord} {e : DecodeError} (h : decode w = .error e) (a a' : Word)
    (w' : InstrWord) (v : Variant) (m : String) : decodeFault a w e ≠ .decoderConsistencyFault a' w' v m := by
  cases reading_of_decode h <;> nofun

/-- The status an instruction leaves: the one it found, a refused data access, or the end by a system call. -/
theorem ExecShape.status_cases {i : Instr} {s t : State} (shape : ExecShape i s t) :
    t.status = s.status ∨ (∃ kind ea n, t.status = .faulted (.memoryFault s.pc kind ea n)) ∨
    (∃ num, t.status = .faulted (.unsupportedSyscall s.pc num)) ∨ ∃ code, t.status = .exited code := by
  cases shape with
  | wrote | linked | branched | passed | stored => exact .inl (by simp)
  | refused kind ea n => exact .inr (.inl ⟨kind, ea, n, rfl⟩)
  | unsupported => exact .inr (.inr (.inl ⟨_, rfl⟩))
  | exited => exact .inr (.inr (.inr ⟨_, rfl⟩))

/-! ## The obligations -/

/-- Settles O2: the encoded word is in the instruction's row, and its operand fields are the instruction's. -/
theorem decodeOfEncode : Obligations.DecodeOfEncode := by
  intro i hi
  rw [decode_of_row (encode_inRow i), buildInstr_encode hi]

/-- Settles O3: a word that decodes is in a row, so it is the layout of its operand fields and the row's fixed bits. -/
theorem encodeOfDecode : Obligations.EncodeOfDecode := by
  intro w i h
  obtain ⟨v, hrow, rfl⟩ := row_of_decode h
  exact ⟨buildInstr_wellFormed v w, encode_buildInstr hrow⟩

/-- Settles O4, by the two inclusions between rows and dispatch. -/
theorem decoderAgreesWithOpcodeTable : Obligations.DecoderAgreesWithOpcodeTable := fun _ _ => decode_variant_iff

/-- Settles O5: the case of a word gives the decoder's answer, and the answer gives back the case. -/
theorem everyWordHasOneReading : Obligations.EveryWordHasOneReading := by
  intro w
  refine ⟨⟨fun h => ?_, decode_of_short⟩, ⟨fun h => ?_, fun ⟨hlong, hnone⟩ => decode_of_no_family hlong hnone⟩,
    ⟨fun h => ?_, fun ⟨⟨_, hop⟩, hnone⟩ => decode_of_no_row hop hnone⟩,
    ⟨fun ⟨i, h⟩ => ?_, fun ⟨_, hrow⟩ => ⟨_, decode_of_row hrow⟩⟩, fun _ _ => row_unique, fun v m h => ?_⟩
  · cases reading_of_decode h with
    | compressed short => exact short
  · cases reading_of_decode h with
    | unknownOpcode long noFamily => exact ⟨long, noFamily⟩
  · cases reading_of_decode h with
    | unknownFunct f family noRow => exact ⟨⟨f, family⟩, noRow⟩
  · cases reading_of_decode h with
    | instruction v row => exact ⟨v, row⟩
  · cases reading_of_decode h

/-- Settles O6: each immediate is assembled by definition. -/
theorem immediatesHaveTheirRanges : Obligations.ImmediatesHaveTheirRanges := fun w =>
  ⟨⟨rfl, sext12_range _⟩, ⟨rfl, sext12_range _⟩, ⟨rfl, immB_range w⟩, ⟨rfl, immU_range w⟩, ⟨rfl, immJ_range w⟩,
    shamtI_eq w, rfl, shamtI_le w⟩

/-- Settles O24: the case of the word says whether Fetch has advanced the pc, and `decodeFault` gives the info. -/
theorem undecodableWordFaults : Obligations.UndecodableWordFaults := by
  intro s hrun heven hadmit
  have hstep {e : DecodeError} := step_of_rejected (e := e) hrun heven hadmit
  refine ⟨fun h => ⟨_, hstep h, ?_⟩, fun h => ⟨_, hstep h, ?_⟩, fun h => ⟨_, hstep h, ?_⟩⟩
  · cases reading_of_decode h with
    | compressed short =>
      rw [if_neg (mt isFourByte_iff.1 short)]
      exact movedTo_raiseFault_here s _
  · cases reading_of_decode h with
    | unknownOpcode long =>
      rw [if_pos (isFourByte_iff.2 long)]
      exact movedTo_raiseFault s _
  · cases reading_of_decode h with
    | unknownFunct f family =>
      rw [if_pos (isFourByte_of_family family)]
      exact movedTo_raiseFault s _

/-- Settles O25: the front end's faults come from the pc check, the port or a rejected word, and an instruction's from
the port or a system call. -/
theorem decoderConsistencyFaultNeverRaised : Obligations.DecoderConsistencyFaultNeverRaised := by
  intro s t a w v m hstep
  obtain ⟨hrun, hfault | ⟨i, -, hexec⟩⟩ := step_next_cases hstep
  · obtain h | h | ⟨e, hdecode, h⟩ := frontEnd_error_status hfault <;> rw [h]
    · nofun
    · nofun
    · exact fun hsame => decodeFault_ne_consistency hdecode _ _ _ _ _ (Status.faulted.inj hsame)
  · obtain h | ⟨_, _, _, h⟩ | ⟨_, h⟩ | ⟨_, h⟩ := (shape_of_exec hexec).status_cases <;> rw [h]
    · rw [hrun]
      nofun
    all_goals nofun

/-- Settles O50: only the low 32 bits of the sum count, and there the two parts sum to the immediate. -/
theorem loadImmediateExpansion : Obligations.LoadImmediateExpansion := by
  intro s rd imm hrd
  refine ⟨_, _, _, _, rfl, exec_lui .., exec_addiw .., ?_, ?_⟩
  · rw [writeReg_readReg_same, if_neg hrd, writeReg_readReg_same, if_neg hrd, BitVec.setWidth_add _ _ (by decide),
      placeU, sext12, setWidth_signExtend_of_le (by decide), setWidth_signExtend_of_le (by decide),
      BitVec.signExtend_eq, hi20_add_lo12]
  · simp only [writeReg_pc, advancePc_pc, BitVec.add_assoc]
    rfl

end Sys2Proof.Machine
end

section
/-! SUPPORT. The datapath (40_datapath.md): runs of the host as iterated steps, the front end at an odd pc, when an
instruction ends the run, and the proofs of the statements of that family. -/

namespace Sys2Proof.Machine

/-! ## Runs of the host -/

/-- From a terminal status the host's step changes nothing (R34, R169). -/
theorem hostStep_terminal {s : State} (h : s.status ≠ .running) : hostStep s = s := by
  rw [hostStep, step_terminal h]

/-- From a terminal status a run stays (R99). -/
theorem hostRun_terminal {s : State} (h : s.status ≠ .running) (n : Nat) : hostRun n s = s := by
  cases n with
  | zero => rfl
  | succ n =>
    unfold hostRun
    split
    case h_1 hrun => exact absurd hrun h
    all_goals rfl

/-- One more unit of fuel is one more step first, from a terminal status too, where both sides stay. -/
theorem hostRun_succ (n : Nat) (s : State) : hostRun (n + 1) s = hostRun n (hostStep s) := by
  by_cases hrun : s.status = .running
  · rw [hostRun, hrun]
  · rw [hostStep_terminal hrun, hostRun_terminal hrun, hostRun_terminal hrun]

/-- A run is the host's step, once for each unit of fuel (R99; log 18). -/
theorem hostRun_eq_iterate (n : Nat) (s : State) : hostRun n s = hostStep^[n] s := by
  induction n generalizing s with
  | zero => rfl
  | succ n ih => rw [hostRun_succ, ih, Function.iterate_succ_apply]

/-- A run has a result exactly when its status is terminal (R99, R169). -/
theorem runResult_eq_none_iff (status : Status) : runResult status = none ↔ status = .running := by
  cases status <;> simp [runResult]

/-! ## The step -/

/-- The pc check comes before the fetch (R90). -/
theorem frontEnd_of_odd {s : State} (h : s.pc.getLsbD 0 = true) :
    frontEnd s = .error (s.raiseFault (.misalignedProgramCounter s.pc)) := by
  rw [frontEnd_eq, if_pos h]

/-- An instruction keeps the status or faults, unless it is the exit system call (R153, R154). -/
theorem ExecShape.exited_only_by_ecall {i : Instr} {s t : State} (shape : ExecShape i s t) :
    t.status = s.status ∨ (∃ f, t.status = .faulted f) ∨
    (i = .ecall ∧ s.readReg Config.syscallNumReg = Config.exitSyscallNumber ∧
      t.status = .exited (s.readReg Config.syscallArgReg)) := by
  cases shape with
  | wrote | linked | branched | passed | stored => exact .inl (by simp)
  | refused | unsupported => exact .inr (.inl ⟨_, rfl⟩)
  | exited is exit => exact .inr (.inr ⟨is, exit, rfl⟩)

/-! ## The obligations -/

/-- Settles O21. -/
theorem stepRunsDecodedInstruction : Obligations.StepRunsDecodedInstruction :=
  fun _ _ => step_of_decode

/-- Settles O22: the pc check is the front end's first, and its fault changes the status alone. -/
theorem oddPcFaultsBeforeFetch : Obligations.OddPcFaultsBeforeFetch := by
  refine fun s => ⟨step_terminal, fun hrun hodd => ⟨_, ?_, movedTo_raiseFault_here s _⟩⟩
  rw [step_running hrun, frontEnd_of_odd hodd]

/-- Settles O27: the front end ends a run by a fault only, and an instruction by a fault or as the exit call. -/
theorem onlyEcallExits : Obligations.OnlyEcallExits := by
  intro s t hstep
  obtain ⟨hrun, hfault | ⟨i, hfront, hexec⟩⟩ := step_next_cases hstep
  · obtain ⟨f, rfl | rfl⟩ := frontEnd_error hfault <;> exact ⟨hrun, .inr (.inl ⟨f, rfl⟩)⟩
  · obtain ⟨-, -, hdecode⟩ := frontEnd_ok hfront
    obtain hkept | hfaulted | ⟨rfl, hexit⟩ := (shape_of_exec hexec).exited_only_by_ecall
    · exact ⟨hrun, .inl (hkept.trans hrun)⟩
    · exact ⟨hrun, .inr (.inl hfaulted)⟩
    · exact ⟨hrun, .inr (.inr ⟨hdecode, hexit⟩)⟩

/-- Settles O46: a run is an iterate of the host's step, and that step fixes the terminal states. -/
theorem runStopsAtTheTerminalStatus : Obligations.RunStopsAtTheTerminalStatus := by
  refine ⟨fun m n s => ?_, fun n _ h => ⟨hostStep_terminal h, hostRun_terminal h n⟩, fun s _ => hostRun_succ 0 s,
    runResult_eq_none_iff⟩
  rw [hostRun_eq_iterate, hostRun_eq_iterate, hostRun_eq_iterate, Nat.add_comm, Function.iterate_add_apply]

end Sys2Proof.Machine
end

section
/-! SUPPORT. The integer ALU (41_alu.md): a row of the statements from its encoding and its `exec` equation, the shift
amount and the comparison result as numbers, the unassigned immediate shifts, and the proofs of the statements of that
family. -/

namespace Sys2Proof.Machine
open Statements

/-! ## Rows

A row's word is the encoder's, and its frame is that of the register write its `exec` equation ends in (R100). -/

/-- A word is decoded by naming the instruction it encodes. -/
theorem decode_of_encode_eq {i : Instr} {w : InstrWord} (wf : i.wellFormed = true) (h : encode i = w) :
    decode w = .ok i :=
  h ▸ decodeOfEncode i wf

section Rows
variable {funct7 opcode : BitVec 7} {funct6 : BitVec 6} {funct3 : BitVec 3}

theorem opRow_of_exec {instr : RegIdx → RegIdx → RegIdx → Instr} {result : Word → Word → Word}
    (decodes : ∀ rd rs1 rs2,
      decode (rType funct7 rs2 rs1 funct3 rd Family.op.opcode) = .ok (instr rd rs1 rs2))
    (writes : ∀ s rd rs1 rs2,
      exec (instr rd rs1 rs2) s = .next (s.advancePc.writeReg rd (result (s.readReg rs1) (s.readReg rs2)))) :
    OpRow funct7 funct3 instr result :=
  fun rd rs1 rs2 => ⟨decodes rd rs1 rs2, fun s => ⟨_, writes s rd rs1 rs2, wroteReg_writeReg ..⟩⟩

theorem opImmRow_of_exec {instr : RegIdx → RegIdx → BitVec 12 → Instr} {result : Word → Word → Word}
    (decodes : ∀ rd rs1 imm, decode (iType imm rs1 funct3 rd opcode) = .ok (instr rd rs1 imm))
    (writes : ∀ s rd rs1 imm,
      exec (instr rd rs1 imm) s = .next (s.advancePc.writeReg rd (result (s.readReg rs1) (sext12 imm)))) :
    OpImmRow opcode funct3 instr result :=
  fun rd rs1 imm => ⟨decodes rd rs1 imm, fun s => ⟨_, writes s rd rs1 imm, wroteReg_writeReg ..⟩⟩

theorem shiftRow_of_exec {instr : RegIdx → RegIdx → BitVec 6 → Instr} {result : Word → Nat → Word}
    (decodes : ∀ rd rs1 shamt,
      decode (shiftType funct6 shamt rs1 funct3 rd Family.opImm.opcode) = .ok (instr rd rs1 shamt))
    (writes : ∀ s rd rs1 shamt,
      exec (instr rd rs1 shamt) s = .next (s.advancePc.writeReg rd (result (s.readReg rs1) shamt.toNat))) :
    ShiftRow funct6 funct3 instr result :=
  fun rd rs1 shamt => ⟨decodes rd rs1 shamt, fun s => ⟨_, writes s rd rs1 shamt, wroteReg_writeReg ..⟩⟩

end Rows

/-! ## Shifts and comparisons -/

/-- Masking with 0x3F is reduction modulo 64 (R105, R121). -/
theorem shiftAmount_eq_mod (op2 : Word) : shiftAmount op2 = op2.toNat % 64 := by
  rw [shiftAmount, BitVec.toNat_and]
  exact Nat.and_two_pow_sub_one_eq_mod _ 6

/-- The mask drops no bit of an immediate shift amount (R71, R106). -/
theorem shiftAmount_zextShamt (shamt : BitVec 6) : shiftAmount (zextShamt shamt) = shamt.toNat := by
  rw [shiftAmount_eq_mod, zextShamt_toNat, Nat.mod_eq_of_lt shamt.isLt]

theorem boolWord_decide (p : Prop) [Decidable p] : boolWord (decide p) = if p then 1#64 else 0#64 :=
  if_congr decide_eq_true_iff rfl rfl

/-- The left-shift row of the OP-IMM table (R75, R106). -/
theorem variantOpImm_shiftLeft {funct6 : BitVec 6} (h : funct6 ≠ 0b000000#6) : variantOpImm 0b001#3 funct6 = none :=
  if_neg h

/-- The right-shift row of the OP-IMM table (R75, R108). -/
theorem variantOpImm_shiftRight {funct6 : BitVec 6} (hlogical : funct6 ≠ 0b000000#6)
    (harithmetic : funct6 ≠ 0b010000#6) : variantOpImm 0b101#3 funct6 = none :=
  (if_neg hlogical).trans (if_neg harithmetic)

/-- An OP-IMM word whose funct3 and funct6 select no variant is rejected, whatever its other fields hold (R75, R84). -/
theorem decode_shiftType_unassigned {funct3 : BitVec 3} {funct6 : BitVec 6}
    (unassigned : variantOpImm funct3 funct6 = none) (shamt : BitVec 6) (rs1 rd : RegIdx) :
    decode (shiftType funct6 shamt rs1 funct3 rd Family.opImm.opcode) = .error .unknownFunct := by
  have hnone : variantIn .opImm (shiftType funct6 shamt rs1 funct3 rd Family.opImm.opcode) = none := by
    rw [variantIn, shiftType_funct3, shiftType_funct6, unassigned]
  rw [decode_of_family (f := .opImm) (shiftType_opcode ..), hnone]

/-! ## The obligations -/

/-- Settles O7: each row's word is the encoder's, and its `exec` equation writes the row's result. -/
theorem addSubtractAndLogicResults : Obligations.AddSubtractAndLogicResults :=
  ⟨opRow_of_exec (fun _ _ _ => decode_of_encode_eq rfl rfl) exec_add,
    opRow_of_exec (fun _ _ _ => decode_of_encode_eq rfl rfl) exec_sub,
    opRow_of_exec (fun _ _ _ => decode_of_encode_eq rfl rfl) exec_xor,
    opRow_of_exec (fun _ _ _ => decode_of_encode_eq rfl rfl) exec_or,
    opRow_of_exec (fun _ _ _ => decode_of_encode_eq rfl rfl) exec_and⟩

/-- Settles O8: as for the register forms, the second operand being the sign-extended immediate. -/
theorem immediateAddAndLogicResults : Obligations.ImmediateAddAndLogicResults :=
  ⟨opImmRow_of_exec (fun _ _ _ => decode_of_encode_eq rfl rfl) exec_addi,
    opImmRow_of_exec (fun _ _ _ => decode_of_encode_eq rfl rfl) exec_xori,
    opImmRow_of_exec (fun _ _ _ => decode_of_encode_eq rfl rfl) exec_ori,
    opImmRow_of_exec (fun _ _ _ => decode_of_encode_eq rfl rfl) exec_andi⟩

/-- Settles O9. -/
theorem addWordImmediateResult : Obligations.AddWordImmediateResult :=
  opImmRow_of_exec (fun _ _ _ => decode_of_encode_eq rfl rfl) exec_addiw

/-- Settles O10: the masked amount is the operand modulo 64 or the whole of shamt, and the two shift rows of the OP-IMM
table have no variant at any other funct6. -/
theorem shiftResults : Obligations.ShiftResults := by
  refine ⟨opRow_of_exec (fun _ _ _ => decode_of_encode_eq rfl rfl) fun s rd rs1 rs2 => ?sll,
    opRow_of_exec (fun _ _ _ => decode_of_encode_eq rfl rfl) fun s rd rs1 rs2 => ?srl,
    opRow_of_exec (fun _ _ _ => decode_of_encode_eq rfl rfl) fun s rd rs1 rs2 => ?sra,
    shiftRow_of_exec (fun _ _ _ => decode_of_encode_eq rfl rfl) fun s rd rs1 shamt => ?slli,
    shiftRow_of_exec (fun _ _ _ => decode_of_encode_eq rfl rfl) fun s rd rs1 shamt => ?srli,
    shiftRow_of_exec (fun _ _ _ => decode_of_encode_eq rfl rfl) fun s rd rs1 shamt => ?srai,
    fun funct6 shamt rs1 rd hlogical => ⟨?left, fun harithmetic => ?right⟩⟩
  case sll => rw [exec_sll, shiftAmount_eq_mod]
  case srl => rw [exec_srl, shiftAmount_eq_mod]
  case sra => rw [exec_sra, shiftAmount_eq_mod]
  case slli => rw [exec_slli, shiftAmount_zextShamt]
  case srli => rw [exec_srli, shiftAmount_zextShamt]
  case srai => rw [exec_srai, shiftAmount_zextShamt]
  case left => exact decode_shiftType_unassigned (variantOpImm_shiftLeft hlogical) shamt rs1 rd
  case right => exact decode_shiftType_unassigned (variantOpImm_shiftRight hlogical harithmetic) shamt rs1 rd

/-- Settles O11: a comparison's word is 1 or 0 as the readings compare. -/
theorem setLessThanResults : Obligations.SetLessThanResults := by
  refine ⟨opRow_of_exec (fun _ _ _ => decode_of_encode_eq rfl rfl) fun s rd rs1 rs2 => ?slt,
    opImmRow_of_exec (fun _ _ _ => decode_of_encode_eq rfl rfl) fun s rd rs1 imm => ?slti,
    opRow_of_exec (fun _ _ _ => decode_of_encode_eq rfl rfl) fun s rd rs1 rs2 => ?sltu,
    opImmRow_of_exec (fun _ _ _ => decode_of_encode_eq rfl rfl) fun s rd rs1 imm => ?sltiu⟩
  case slt => rw [exec_slt, cmpLtSigned, boolWord_decide]
  case slti => rw [exec_slti, cmpLtSigned, boolWord_decide]
  case sltu => rw [exec_sltu, cmpLtUnsigned, boolWord_decide]
  case sltiu => rw [exec_sltiu, cmpLtUnsigned, boolWord_decide]

end Sys2Proof.Machine
end

section
/-! SUPPORT. Multiply, divide and remainder (42_muldiv.md): the bit fields of a two's complement number as floor division,
the quotient and the remainder as signed integers, and the proofs of the statements of that family. -/

namespace Sys2Proof.Machine
open Statements

/-! ## The halves of the product -/

/-- A bit field of a two's complement number is the floor of the number by the field's weight, reduced to the field. -/
theorem extractLsb'_ofInt {w start len : Nat} (h : start + len ≤ w) (i : Int) :
    (BitVec.ofInt w i).extractLsb' start len = BitVec.ofInt len (i / 2 ^ start) := by
  obtain ⟨k, rfl⟩ := Nat.exists_eq_add_of_le h
  have hpos : (0 : Int) < 2 ^ start := by positivity
  have hfield : i % 2 ^ (start + len + k) / 2 ^ start % 2 ^ len = i / 2 ^ start % 2 ^ len := by
    rw [Int.emod_def i, add_assoc, pow_add, mul_assoc, Int.sub_mul_ediv_left _ _ hpos.ne', pow_add, mul_assoc,
      Int.sub_mul_emod_self_left]
  apply BitVec.eq_of_toNat_eq
  rw [BitVec.extractLsb'_toNat, BitVec.toNat_ofInt, BitVec.toNat_ofInt, Nat.shiftRight_eq_div_pow]
  apply Int.natCast_inj.mp
  push_cast
  rw [Int.toNat_of_nonneg (Int.emod_nonneg _ (by positivity)), Int.toNat_of_nonneg (Int.emod_nonneg _ (by positivity)),
    hfield]

/-- The low half of the exact signed product (R122). -/
theorem signedProduct_low (x y : Word) : (signedProduct x y).extractLsb' 0 64 = BitVec.ofInt 64 (x.toInt * y.toInt) := by
  rw [signedProduct, extractLsb'_ofInt (by decide), pow_zero, Int.ediv_one]

/-- The high half of the exact signed product (R123). -/
theorem signedProduct_high (x y : Word) :
    (signedProduct x y).extractLsb' 64 64 = BitVec.ofInt 64 (x.toInt * y.toInt / 2 ^ 64) :=
  extractLsb'_ofInt (by decide) _

/-- The signed and the unsigned product agree modulo 2^64 (R122). -/
theorem ofInt_mul_toInt_eq_ofNat (x y : Word) :
    BitVec.ofInt 64 (x.toInt * y.toInt) = BitVec.ofNat 64 (x.toNat * y.toNat) := by
  rw [BitVec.ofInt_mul, BitVec.ofInt_toInt, BitVec.ofInt_toInt, BitVec.ofNat_mul, BitVec.ofNat_toNat, BitVec.ofNat_toNat,
    BitVec.setWidth_eq, BitVec.setWidth_eq]

/-! ## Quotient and remainder -/

/-- The model's remainder, dividend less divisor times quotient, is the truncating one (R125, D15). -/
theorem remainder_eq_tmod (x y : Word) : remainder x y =
    if y = 0#64 then x else if x = mostNegative ∧ y = minusOne then 0#64
    else BitVec.ofInt 64 (x.toInt.tmod y.toInt) := by
  rw [remainder, Int.tmod_def]

section Signed
variable {x y : Word} (divisor : y ≠ 0#64) (noOverflow : ¬(x = mostNegative ∧ y = minusOne))
include divisor noOverflow

/-- Outside the two special cases the truncated quotient fits in 64 bits (R124). -/
theorem quotient_toInt : (quotient x y).toInt = x.toInt.tdiv y.toInt := by
  rw [quotient, if_neg divisor, if_neg noOverflow, BitVec.toInt_ofInt, ← BitVec.toInt_sdiv]
  exact BitVec.toInt_sdiv_of_ne_or_ne x y (not_and_or.mp noOverflow)

/-- Outside the two special cases the remainder fits in 64 bits (R125). -/
theorem remainder_toInt : (remainder x y).toInt = x.toInt.tmod y.toInt := by
  rw [remainder_eq_tmod, if_neg divisor, if_neg noOverflow, ← BitVec.toInt_srem, BitVec.ofInt_toInt]

end Signed

/-- The truncating remainder is smaller than the divisor in magnitude (R126). -/
theorem abs_tmod_lt {b : Int} (a : Int) (h : b ≠ 0) : |a.tmod b| < |b| := by
  rw [Int.abs_eq_natAbs, Int.abs_eq_natAbs, Int.natAbs_tmod]
  exact Int.ofNat_lt.mpr (Nat.mod_lt _ (Int.natAbs_pos.mpr h))

/-- A non-zero truncating remainder has the dividend's sign (R126). -/
theorem tmod_neg_iff {a b : Int} (h : a.tmod b ≠ 0) : a.tmod b < 0 ↔ a < 0 := by
  have hsign : (a.tmod b).sign = a.sign := by
    rw [Int.sign_tmod, if_neg (mt Int.tmod_eq_zero_of_dvd h)]
  rw [← Int.sign_eq_neg_one_iff_neg, hsign, Int.sign_eq_neg_one_iff_neg]

/-! ## The obligations -/

/-- Settles O12: the two halves of the 128-bit product as numbers, the low one also of the unsigned product. -/
theorem multiplyResults : Obligations.MultiplyResults := by
  refine ⟨opRow_of_exec (fun _ _ _ => decode_of_encode_eq rfl rfl) fun s rd rs1 rs2 => ?mulSigned,
    opRow_of_exec (fun _ _ _ => decode_of_encode_eq rfl rfl) fun s rd rs1 rs2 => ?mulUnsigned,
    opRow_of_exec (fun _ _ _ => decode_of_encode_eq rfl rfl) fun s rd rs1 rs2 => ?mulh⟩
  case mulSigned => rw [exec_mul, signedProduct_low]
  case mulUnsigned => rw [exec_mul, signedProduct_low, ofInt_mul_toInt_eq_ofNat]
  case mulh => rw [exec_mulh, signedProduct_high]

/-- Settles O13: the quotient is the row's own case distinction, the remainder that of the truncating division. -/
theorem divideAndRemainderResults : Obligations.DivideAndRemainderResults := by
  refine ⟨opRow_of_exec (fun _ _ _ => decode_of_encode_eq rfl rfl) exec_div,
    opRow_of_exec (fun _ _ _ => decode_of_encode_eq rfl rfl) fun s rd rs1 rs2 => ?rem⟩
  case rem =>
    rw [exec_rem, remainder_eq_tmod]
    rfl

/-- Settles O14: what DIV and REM leave in rd are the truncated quotient and its remainder, as exact integers. -/
theorem divisionIdentity : Obligations.DivisionIdentity := by
  intro s t u rd rs1 rs2 hrd divisor noOverflow hdiv hrem
  obtain rfl := Host.Outcome.next.inj ((exec_div ..).symm.trans hdiv)
  obtain rfl := Host.Outcome.next.inj ((exec_rem ..).symm.trans hrem)
  rw [writeReg_readReg_same, writeReg_readReg_same, if_neg hrd, if_neg hrd, quotient_toInt divisor noOverflow,
    remainder_toInt divisor noOverflow]
  have hne : (s.readReg rs2).toInt ≠ 0 := fun h => divisor (BitVec.eq_of_toInt_eq h)
  exact ⟨(Int.mul_tdiv_add_tmod ..).symm, abs_tmod_lt _ hne, tmod_neg_iff⟩

end Sys2Proof.Machine
end

section
/-! SUPPORT. Upper immediates and jumps (43_upper_and_jumps.md): the row of an upper-immediate variant, the words of JALR's
opcode that are no JALR, the pc check that an even pc passes, and the proofs of the statements of that family. -/

namespace Sys2Proof.Machine
open Statements

/-! ## Upper-immediate rows -/

/-- An upper-immediate row from its encoding and its `exec` equation (R65, R69). -/
theorem upperRow_of_exec {opcode : BitVec 7} {instr : RegIdx → BitVec 20 → Instr} {result : Word → Word → Word}
    (decodes : ∀ rd imm20, decode (uType imm20 rd opcode) = .ok (instr rd imm20))
    (writes : ∀ s rd imm20, exec (instr rd imm20) s = .next (s.advancePc.writeReg rd (result s.pc (placeU imm20)))) :
    UpperRow opcode instr result :=
  fun rd imm20 => ⟨decodes rd imm20, fun s => ⟨_, writes s rd imm20, wroteReg_writeReg ..⟩⟩

/-! ## Jumps -/

/-- JALR's opcode with another funct3 selects no variant (R79, R84). -/
theorem decode_jalr_unassigned {funct3 : BitVec 3} (h : funct3 ≠ 0b000#3) (imm : BitVec 12) (rs1 rd : RegIdx) :
    decode (iType imm rs1 funct3 rd Family.jalr.opcode) = .error .unknownFunct := by
  have hnone : variantIn .jalr (iType imm rs1 funct3 rd Family.jalr.opcode) = none := by
    rw [variantIn, iType_funct3, if_neg h]
  rw [decode_of_family (f := .jalr) (iType_opcode ..), hnone]

/-- A jump to the instruction's own address that discards its link leaves the state as it was (R23, R130). -/
theorem exec_jal_self (s : State) : exec (.jal 0#5 0#21) s = .next s := by
  rw [exec_jal, show s.pc + sextJ 0#21 = s.pc from BitVec.add_zero _]
  rfl

/-! ## The pc check -/

/-- The decoder's rejections are recorded as faults of their own kinds (R83 to R85). -/
theorem decodeFault_ne_misaligned (a : Word) (w : InstrWord) (e : DecodeError) (a' : Word) :
    decodeFault a w e ≠ .misalignedProgramCounter a' := by
  cases e <;> nofun

/-- At an even pc the front end raises no MisalignedProgramCounter (R90). -/
theorem frontEnd_ne_misaligned {s t : State} (heven : s.pc.getLsbD 0 = false) (h : frontEnd s = .error t) (a : Word) :
    t.status ≠ .faulted (.misalignedProgramCounter a) := by
  rw [frontEnd_eq, heven, if_neg Bool.false_ne_true] at h
  split at h
  · cases hdecode : decode (wordAt s s.pc) with
    | ok i =>
      rw [hdecode] at h
      cases h
    | error e =>
      rw [hdecode] at h
      obtain rfl := Except.error.inj h
      exact fun hsame => decodeFault_ne_misaligned _ _ e a (Status.faulted.inj hsame)
  · obtain rfl := Except.error.inj h
    nofun

/-- A step from an even pc does not end in MisalignedProgramCounter (R90, R127). -/
theorem step_ne_misaligned {s t : State} (heven : s.pc.getLsbD 0 = false) (h : step s = .next t) (a : Word) :
    t.status ≠ .faulted (.misalignedProgramCounter a) := by
  obtain ⟨hrun, hfault | ⟨i, -, hexec⟩⟩ := step_next_cases h
  · exact frontEnd_ne_misaligned heven hfault a
  · obtain hstatus | ⟨_, _, _, hstatus⟩ | ⟨_, hstatus⟩ | ⟨_, hstatus⟩ := (shape_of_exec hexec).status_cases <;>
      rw [hstatus]
    · rw [hrun]
      nofun
    all_goals nofun

/-- What every state of a run keeps: the invariant, whose even pc is what the pc check asks for, and no record of that
check having failed. -/
structure PassesPcCheck (s : State) : Prop where
  inv : Inv s
  notMisaligned : ∀ a, s.status ≠ .faulted (.misalignedProgramCounter a)

/-- The host's step keeps it: a step that answers next by the lemmas on `step`, any other by changing nothing. -/
theorem PassesPcCheck.hostStep {s : State} (h : PassesPcCheck s) : PassesPcCheck (hostStep s) := by
  unfold Machine.hostStep
  split
  case h_1 t hstep => exact ⟨stepKeepsInvariant s t h.inv hstep, step_ne_misaligned h.inv.evenPc hstep⟩
  all_goals exact h

theorem PassesPcCheck.hostRun {s : State} (h : PassesPcCheck s) (fuel : Nat) : PassesPcCheck (hostRun fuel s) := by
  rw [hostRun_eq_iterate]
  exact Function.Iterate.rec PassesPcCheck h (fun _ => PassesPcCheck.hostStep) fuel

/-! ## The obligations -/

/-- Settles O31: a Running state has recorded no fault, and every step of the run keeps both parts of `PassesPcCheck`. -/
theorem noRunReachesAnOddPc : Obligations.NoRunReachesAnOddPc := by
  intro s fuel a hinv hrun
  have hstart : PassesPcCheck s := ⟨hinv, fun _ => by rw [hrun]; nofun⟩
  have hreached := hstart.hostRun fuel
  exact ⟨hreached.inv.evenPc, hreached.notMisaligned a⟩

/-- Settles O15: each row's word is the encoder's, and its `exec` equation writes the row's result. -/
theorem upperImmediateResults : Obligations.UpperImmediateResults :=
  ⟨upperRow_of_exec (fun _ _ => decode_of_encode_eq rfl rfl) exec_lui,
    upperRow_of_exec (fun _ _ => decode_of_encode_eq rfl rfl) exec_auipc⟩

/-- Settles O16: both `exec` equations link and jump, with the target taken from the state before the link is written. -/
theorem jumpResults : Obligations.JumpResults := by
  refine ⟨fun rd offset => ⟨fun heven => ?jalWord, fun s => ⟨_, exec_jal .., wroteReg_jump ..⟩⟩,
    fun rd rs1 imm => ⟨?jalrWord, fun s => ⟨_, exec_jalr .., wroteReg_jump ..⟩, fun funct3 hother => ?otherFunct3⟩⟩
  case jalWord => exact decode_of_encode_eq (evenOffset_iff.2 heven) rfl
  case jalrWord => exact decode_of_encode_eq rfl rfl
  case otherFunct3 => exact decode_jalr_unassigned hother imm rs1 rd

/-- Settles O47: the word is `JAL x0, 0`, so the state is a fixed point of the host's step. -/
theorem jumpToItselfNeverEnds : Obligations.JumpToItselfNeverEnds := by
  intro s fuel hrun heven hadmit hword
  have hdecode : decode (wordAt s s.pc) = .ok (.jal 0#5 0#21) := by
    rw [hword]
    exact decode_of_encode_eq rfl rfl
  have hfixed : hostStep s = s := by
    rw [hostStep, step_of_decode hrun heven hadmit hdecode, exec_jal_self]
  rw [hostRun_eq_iterate, Function.iterate_fixed hfixed]

end Sys2Proof.Machine
end

section
/-! SUPPORT. The conditional branches (44_branches.md): the complemented comparisons as relations, a row of the statements
from its encoding and its `exec` equation, and the proof of the statement of that family. -/

namespace Sys2Proof.Machine
open Statements

/-! ## The relations

BNE, BGE and BGEU take the complement of what BEQ, BLT and BLTU compare (R134, R136, R138). -/

theorem cmpEq_eq_decide (x y : Word) : cmpEq x y = decide (x = y) := beq_eq_decide x y

theorem not_cmpEq (x y : Word) : (!cmpEq x y) = decide (x ≠ y) := by
  rw [cmpEq_eq_decide, ← decide_not]

theorem not_cmpLtSigned (x y : Word) : (!cmpLtSigned x y) = decide (y.toInt ≤ x.toInt) := by
  simp only [cmpLtSigned, ← decide_not, Int.not_lt]

theorem not_cmpLtUnsigned (x y : Word) : (!cmpLtUnsigned x y) = decide (y.toNat ≤ x.toNat) := by
  simp only [cmpLtUnsigned, ← decide_not, Nat.not_lt]

/-! ## The rows -/

/-- A branch changes the pc alone, taken or not (R132). -/
theorem movedTo_branch (s : State) (taken : Bool) (target : Word) :
    MovedTo s (if taken then s.advancePc.setPc target else s.advancePc) (if taken then target else s.pc + 4#64)
      s.status := by
  cases taken with
  | true => exact movedTo_setPc s target
  | false => exact movedTo_advancePc s

/-- A branch row from its encoding and its `exec` equation, the encoding being that of the even offsets (R64, R68). -/
theorem branchRow_of_exec {funct3 : BitVec 3} {instr : RegIdx → RegIdx → BitVec 13 → Instr}
    {cond : Word → Word → Bool}
    (decodes : ∀ rs1 rs2 offset, evenOffset offset = true →
      decode (bType offset rs2 rs1 funct3 Family.branch.opcode) = .ok (instr rs1 rs2 offset))
    (moves : ∀ s rs1 rs2 offset, exec (instr rs1 rs2 offset) s =
      .next (if cond (s.readReg rs1) (s.readReg rs2) then s.advancePc.setPc (s.pc + sextB offset) else s.advancePc)) :
    BranchRow funct3 instr cond :=
  fun rs1 rs2 offset => ⟨fun heven => decodes rs1 rs2 offset (evenOffset_iff.2 heven),
    fun s => ⟨_, moves s rs1 rs2 offset, movedTo_branch ..⟩⟩

/-! ## The obligation -/

/-- Settles O17: each row's word is the encoder's, and its `exec` equation branches on the row's relation. -/
theorem branchResults : Obligations.BranchResults := by
  refine ⟨branchRow_of_exec (fun _ _ _ heven => decode_of_encode_eq heven rfl) fun s rs1 rs2 offset => ?beq,
    branchRow_of_exec (fun _ _ _ heven => decode_of_encode_eq heven rfl) fun s rs1 rs2 offset => ?bne,
    branchRow_of_exec (fun _ _ _ heven => decode_of_encode_eq heven rfl) exec_blt,
    branchRow_of_exec (fun _ _ _ heven => decode_of_encode_eq heven rfl) fun s rs1 rs2 offset => ?bge,
    branchRow_of_exec (fun _ _ _ heven => decode_of_encode_eq heven rfl) exec_bltu,
    branchRow_of_exec (fun _ _ _ heven => decode_of_encode_eq heven rfl) fun s rs1 rs2 offset => ?bgeu⟩
  case beq => rw [exec_beq, cmpEq_eq_decide]
  case bne => rw [exec_bne, not_cmpEq]
  case bge => rw [exec_bge, not_cmpLtSigned]
  case bgeu => rw [exec_bgeu, not_cmpLtUnsigned]

end Sys2Proof.Machine
end

section
/-! SUPPORT. Loads and stores (45_loads_stores.md): a multi-byte read as its bytes, the rows of the statements from their
encodings and their `exec` equations, what a load reads back after a store of its width, and the proofs of the statements
of that family. -/

namespace Sys2Proof.Machine
open Statements

/-! ## A multi-byte read as its bytes

The lowest address is in the lowest bits (R42, R44; D3). -/

theorem readLE_width_byte (s : State) (ea : Word) : s.mem.readLE ea Width.byte.bytes = s.byteAt ea := Memory.readLE_one ..

theorem readLE_width_half (s : State) (ea : Word) :
    s.mem.readLE ea Width.half.bytes = s.byteAt (ea + 1#64) ++ s.byteAt ea :=
  congrArg (· ++ s.byteAt ea) (readLE_width_byte s (ea + 1#64))

theorem readLE_width_word (s : State) (ea : Word) : s.mem.readLE ea Width.word.bytes =
    s.byteAt (ea + 3#64) ++ s.byteAt (ea + 2#64) ++ s.byteAt (ea + 1#64) ++ s.byteAt ea := by
  change s.mem.readLE (ea + 1#64 + 1#64) Width.half.bytes ++ s.byteAt (ea + 1#64) ++ s.byteAt ea = _
  rw [readLE_width_half]
  simp only [BitVec.add_assoc, BitVec.reduceAdd]
  rfl

theorem readLE_width_double (s : State) (ea : Word) : s.mem.readLE ea Width.double.bytes =
    s.byteAt (ea + 7#64) ++ s.byteAt (ea + 6#64) ++ s.byteAt (ea + 5#64) ++ s.byteAt (ea + 4#64) ++
      s.byteAt (ea + 3#64) ++ s.byteAt (ea + 2#64) ++ s.byteAt (ea + 1#64) ++ s.byteAt ea := by
  change s.mem.readLE (ea + 1#64 + 1#64 + 1#64 + 1#64) Width.word.bytes ++ s.byteAt (ea + 1#64 + 1#64 + 1#64) ++
    s.byteAt (ea + 1#64 + 1#64) ++ s.byteAt (ea + 1#64) ++ s.byteAt ea = _
  rw [readLE_width_word]
  simp only [BitVec.add_assoc, BitVec.reduceAdd]
  rfl

/-! ## Rows -/

section Rows
variable {funct3 funct3' : BitVec 3} {width : Width}

/-- A load row from its encoding, its `exec` equation and the bytes its read is made of (R63, R140). -/
theorem loadRow_of_exec {instr : RegIdx → RegIdx → BitVec 12 → Instr} {ext : Extend} {value : State → Word → Word}
    (decodes : ∀ rd rs1 imm, decode (iType imm rs1 funct3 rd Family.load.opcode) = .ok (instr rd rs1 imm))
    (loads : ∀ s rd rs1 imm, exec (instr rd rs1 imm) s =
      .next (if memAdmit s.verdict .load (s.readReg rs1 + sext12 imm) width
        then s.advancePc.writeReg rd (extendValue ext (s.mem.readLE (s.readReg rs1 + sext12 imm) width.bytes))
        else s.advancePc.raiseFault (.memoryFault s.pc .load (s.readReg rs1 + sext12 imm) width)))
    (reads : ∀ s ea, extendValue ext (s.mem.readLE ea width.bytes) = value s ea) :
    LoadRow funct3 width instr value := by
  refine fun rd rs1 imm => ⟨decodes rd rs1 imm, fun s => ⟨fun admitted => ?_, fun refused => ?_⟩⟩
  · refine ⟨_, (loads s rd rs1 imm).trans (congrArg _ (if_pos admitted)), ?_⟩
    rw [reads]
    exact wroteReg_writeReg ..
  · exact ⟨_, (loads s rd rs1 imm).trans (congrArg _ (if_neg (ne_true_of_eq_false refused))), movedTo_raiseFault ..⟩

/-- A store row from its encoding and its `exec` equation (R64, R147). -/
theorem storeRow_of_exec {instr : RegIdx → RegIdx → BitVec 12 → Instr}
    (decodes : ∀ rs1 rs2 imm, decode (sType imm rs2 rs1 funct3 Family.store.opcode) = .ok (instr rs1 rs2 imm))
    (stores : ∀ s rs1 rs2 imm, exec (instr rs1 rs2 imm) s =
      .next (if memAdmit s.verdict .store (s.readReg rs1 + sext12 imm) width
        then s.advancePc.setMem
          (s.mem.writeLE (s.readReg rs1 + sext12 imm) width.bytes ((s.readReg rs2).setWidth (8 * width.bytes)))
        else s.advancePc.raiseFault (.memoryFault s.pc .store (s.readReg rs1 + sext12 imm) width))) :
    StoreRow funct3 width instr := by
  refine fun rs1 rs2 imm => ⟨decodes rs1 rs2 imm, fun s => ⟨fun hwf admitted => ?_, fun refused => ?_⟩⟩
  · exact ⟨_, (stores s rs1 rs2 imm).trans (congrArg _ (if_pos admitted)), storedAt_writeLE hwf ..⟩
  · exact ⟨_, (stores s rs1 rs2 imm).trans (congrArg _ (if_neg (ne_true_of_eq_false refused))), movedTo_raiseFault ..⟩

/-- A load after a store of its width at the same address extends the low bytes of the stored register; it finds its base
and the port's verdict where the store left them (R42, R43). -/
theorem load_after_store {storing loading : RegIdx → RegIdx → BitVec 12 → Instr} {ext : Extend}
    (store : StoreRow funct3 width storing)
    (load : LoadRow funct3' width loading fun s ea => extendValue ext (s.mem.readLE ea width.bytes))
    {s : State} {rd rs1 : RegIdx} (rs2 : RegIdx) {imm : BitVec 12} (hwf : s.mem.wf) (hrd : rd ≠ 0#5)
    (hstore : memAdmit s.verdict .store (s.readReg rs1 + imm.signExtend 64) width = true)
    (hload : memAdmit s.verdict .load (s.readReg rs1 + imm.signExtend 64) width = true) :
    ∃ t u, exec (storing rs1 rs2 imm) s = .next t ∧ exec (loading rd rs1 imm) t = .next u ∧
      u.readReg rd = extendValue ext ((s.readReg rs2).extractLsb' 0 (8 * width.bytes)) := by
  obtain ⟨-, stores⟩ := store rs1 rs2 imm
  obtain ⟨t, hexec, stored⟩ := (stores s).1 hwf hstore
  obtain ⟨-, loads⟩ := load rd rs1 imm
  obtain ⟨u, hexec', wrote⟩ := (loads t).1 (by rwa [stored.verdict, stored.regs])
  have hread := stored.readLE (k := 0) (n := width.bytes) (by omega)
  rw [BitVec.add_zero] at hread
  refine ⟨t, u, hexec, hexec', ?_⟩
  rw [wrote.dest, if_neg hrd, stored.regs]
  exact congrArg (extendValue ext) hread

end Rows

/-- A LOAD word whose funct3 selects no variant is rejected, whatever its other fields hold (R77, R84). -/
theorem decode_load_unassigned {funct3 : BitVec 3} (unassigned : variantLoad funct3 = none) (imm : BitVec 12)
    (rs1 rd : RegIdx) : decode (iType imm rs1 funct3 rd Family.load.opcode) = .error .unknownFunct := by
  have hnone : variantIn .load (iType imm rs1 funct3 rd Family.load.opcode) = none := by
    rw [variantIn, iType_funct3, unassigned]
  rw [decode_of_family (f := .load) (iType_opcode ..), hnone]

/-! ## A value that is the sign extension of its low part -/

/-- The bits of a vector all equal its bit 0 exactly when it is all zeros or all ones. -/
theorem getLsbD_eq_zeroth_iff {n : Nat} (x : BitVec n) :
    (∀ j < n, x.getLsbD j = x.getLsbD 0) ↔ x = 0#n ∨ x = BitVec.allOnes n := by
  constructor
  · intro h
    cases hbit : x.getLsbD 0 with
    | false => exact .inl (BitVec.eq_of_getLsbD_eq fun j hj => by rw [h j hj, hbit, BitVec.getLsbD_zero])
    | true =>
      exact .inr (BitVec.eq_of_getLsbD_eq fun j hj => by
        rw [h j hj, hbit, BitVec.getLsbD_allOnes, decide_eq_true hj])
  · rintro (rfl | rfl) j hj
    · rw [BitVec.getLsbD_zero, BitVec.getLsbD_zero]
    · rw [BitVec.getLsbD_allOnes, BitVec.getLsbD_allOnes, decide_eq_true hj, decide_eq_true (by omega)]

/-- Sign-extending the low `n + 1` bits repeats bit `n` upwards. -/
theorem getLsbD_signExtend_setWidth {n w i : Nat} (hi : i < w) (x : BitVec w) :
    ((x.setWidth (n + 1)).signExtend w).getLsbD i = x.getLsbD (min i n) := by
  rw [BitVec.getLsbD_signExtend, decide_eq_true hi, Bool.true_and, BitVec.msb_eq_getLsbD_last,
    BitVec.getLsbD_setWidth, BitVec.getLsbD_setWidth]
  split
  case isTrue hlow => rw [min_eq_left (by omega), decide_eq_true hlow, Bool.true_and]
  case isFalse hhigh =>
    rw [min_eq_right (by omega), Nat.add_sub_cancel, decide_eq_true (by omega), Bool.true_and]

/-- A value is the sign extension of its low `n + 1` bits exactly when its bits from `n` up are all 0 or all 1. -/
theorem signExtend_setWidth_eq_iff {n k : Nat} (hk : 0 < k) (x : BitVec (n + k)) :
    (x.setWidth (n + 1)).signExtend (n + k) = x ↔
      x.extractLsb' n k = 0#k ∨ x.extractLsb' n k = BitVec.allOnes k := by
  have hbit : ∀ j < k, (x.extractLsb' n k).getLsbD j = x.getLsbD (n + j) := fun j hj => by
    rw [BitVec.getLsbD_extractLsb', decide_eq_true hj, Bool.true_and]
  have hlast : (x.extractLsb' n k).getLsbD 0 = x.getLsbD n := hbit 0 hk
  rw [← getLsbD_eq_zeroth_iff, hlast]
  constructor
  · intro h j hj
    rw [hbit j hj, ← h, getLsbD_signExtend_setWidth (by omega), getLsbD_signExtend_setWidth (by omega),
      min_eq_right (by omega), min_self]
  · intro h
    refine BitVec.eq_of_getLsbD_eq fun i hi => ?_
    rw [getLsbD_signExtend_setWidth hi]
    rcases le_total i n with hlow | hhigh
    · rw [min_eq_left hlow]
    · rw [min_eq_right hhigh, ← h (i - n) (by omega), hbit _ (by omega), Nat.add_sub_of_le hhigh]

/-! ## The obligations -/

/-- Settles O18: each row's word is the encoder's, its `exec` equation loads or faults as the port answers, and the read
is the row's bytes; the LOAD table has no variant at the last two funct3 values. -/
theorem loadResults : Obligations.LoadResults := by
  refine ⟨loadRow_of_exec (fun _ _ _ => decode_of_encode_eq rfl rfl) exec_lb fun s ea => ?lb,
    loadRow_of_exec (fun _ _ _ => decode_of_encode_eq rfl rfl) exec_lh fun s ea => ?lh,
    loadRow_of_exec (fun _ _ _ => decode_of_encode_eq rfl rfl) exec_lw fun s ea => ?lw,
    loadRow_of_exec (fun _ _ _ => decode_of_encode_eq rfl rfl) exec_ld fun s ea => ?ld,
    loadRow_of_exec (fun _ _ _ => decode_of_encode_eq rfl rfl) exec_lbu fun s ea => ?lbu,
    loadRow_of_exec (fun _ _ _ => decode_of_encode_eq rfl rfl) exec_lhu fun s ea => ?lhu,
    fun rd rs1 imm => ⟨decode_load_unassigned rfl imm rs1 rd, decode_load_unassigned rfl imm rs1 rd⟩⟩
  case lb | lbu => exact congrArg (extendValue _) (readLE_width_byte s ea)
  case lh | lhu => exact congrArg (extendValue _) (readLE_width_half s ea)
  case lw => exact congrArg (extendValue _) (readLE_width_word s ea)
  case ld => exact (BitVec.setWidth_eq _).trans (readLE_width_double s ea)

/-- Settles O19: each row's word is the encoder's, and its `exec` equation stores or faults as the port answers. -/
theorem storeResults : Obligations.StoreResults :=
  ⟨storeRow_of_exec (fun _ _ _ => decode_of_encode_eq rfl rfl) exec_sb,
    storeRow_of_exec (fun _ _ _ => decode_of_encode_eq rfl rfl) exec_sh,
    storeRow_of_exec (fun _ _ _ => decode_of_encode_eq rfl rfl) exec_sw,
    storeRow_of_exec (fun _ _ _ => decode_of_encode_eq rfl rfl) exec_sd⟩

/-- Settles O39: the 64 bits read back are the whole of x[rs2], which no extension changes. -/
theorem storeDoubleThenLoadDouble : Obligations.StoreDoubleThenLoadDouble := by
  intro s rd rs1 rs2 imm hwf hrd hstore hload
  obtain ⟨-, -, -, sdRow⟩ := storeResults
  obtain ⟨t, u, hsd, hld, hread⟩ := load_after_store sdRow
    (loadRow_of_exec (fun _ _ _ => decode_of_encode_eq rfl rfl) exec_ld fun _ _ => rfl) rs2 hwf hrd hstore hload
  refine ⟨t, u, hsd, hld, hread.trans ?_⟩
  exact (BitVec.setWidth_eq _).trans BitVec.extractLsb'_eq_self

/-- Settles O40: LW reads back the sign extension of the low 32 bits of x[rs2]. -/
theorem storeWordThenLoadWord : Obligations.StoreWordThenLoadWord := by
  intro s rd rs1 rs2 imm hwf hrd hstore hload
  obtain ⟨-, -, swRow, -⟩ := storeResults
  obtain ⟨t, u, hsw, hlw, hread⟩ := load_after_store swRow
    (loadRow_of_exec (fun _ _ _ => decode_of_encode_eq rfl rfl) exec_lw fun _ _ => rfl) rs2 hwf hrd hstore hload
  refine ⟨t, u, hsw, hlw, ?_⟩
  rw [hread, ← BitVec.setWidth_eq_extractLsb' (by decide)]
  exact signExtend_setWidth_eq_iff (n := 31) (k := 33) (by decide) (s.readReg rs2)

end Sys2Proof.Machine
end

section
/-! SUPPORT. The system call (46_system.md): the proof of the statement of that family. -/

namespace Sys2Proof.Machine

/-! ## The obligation -/

/-- Settles O20: the word is the encoder's, and the `exec` equation halts or faults as x17 is the exit number (D11) or
not; either way the state is the advanced one but for its status. -/
theorem systemCallResults : Obligations.SystemCallResults := by
  refine ⟨decode_of_encode_eq rfl rfl, fun s => ⟨fun hexit => ?exit, fun hother => ?other⟩⟩
  case exit => exact ⟨_, (exec_ecall s).trans (congrArg _ (if_pos hexit)), movedTo_haltExited ..⟩
  case other => exact ⟨_, (exec_ecall s).trans (congrArg _ (if_neg hother)), movedTo_raiseFault ..⟩

end Sys2Proof.Machine
end

section
/-! SUPPORT. Exceptions (60_exceptions.md): the one state a fault of each stage leaves, and the proofs of the statements
of that family. -/

namespace Sys2Proof.Machine

/-! ## The state a fault leaves -/

/-- The state a step from `s` leaves when it ends in `f`: only the status changes when Fetch raised it, and a later
fault finds the pc advanced (R98, R162; D8). -/
def State.endedBy (s : State) (f : FaultRecord) : State := (if raisedByFetch f then s else s.advancePc).raiseFault f

theorem movedTo_endedBy (s : State) (f : FaultRecord) :
    MovedTo s (s.endedBy f) (if raisedByFetch f then s.pc else s.pc + 4#64) (.faulted f) := by
  unfold State.endedBy
  split
  · exact movedTo_raiseFault_here s f
  · exact movedTo_raiseFault s f

/-! ## The faults of each stage -/

theorem faultAddress_decodeFault (a : Word) (w : InstrWord) (e : DecodeError) :
    faultAddress (decodeFault a w e) = a := by
  cases e <;> rfl

/-- Of the decoder's rejections, those of 16-bit words alone are raised before Fetch advances the pc (R91; D7, D8). -/
theorem raisedByFetch_decodeFault {w : InstrWord} {e : DecodeError} (h : decode w = .error e) (a : Word) :
    raisedByFetch (decodeFault a w e) = !isFourByte w := by
  cases reading_of_decode h with
  | compressed | unknownOpcode => rfl
  | unknownFunct f family =>
    rw [isFourByte_of_family family]
    rfl

/-- A front end that fails records the step's own pc and leaves the state of its fault's stage (R90 to R92, R161). -/
theorem frontEnd_error_endedBy {s t : State} (h : frontEnd s = .error t) :
    ∃ f, faultAddress f = s.pc ∧ t = s.endedBy f := by
  rw [frontEnd_eq] at h
  split at h
  case isTrue => exact ⟨.misalignedProgramCounter s.pc, rfl, (Except.error.inj h).symm⟩
  split at h
  case isFalse => exact ⟨.memoryFault s.pc .fetch s.pc .word, rfl, (Except.error.inj h).symm⟩
  cases hdecode : decode (wordAt s s.pc) with
  | ok i =>
    rw [hdecode] at h
    cases h
  | error e =>
    rw [hdecode] at h
    refine ⟨_, faultAddress_decodeFault s.pc (wordAt s s.pc) e, (Except.error.inj h).symm.trans ?_⟩
    rw [State.endedBy, raisedByFetch_decodeFault hdecode]
    cases isFourByte (wordAt s s.pc) <;> rfl

/-- An instruction that faults does so after Fetch: a refused data access or an unsupported call (R98, R154). -/
theorem ExecShape.endedBy_of_faulted {i : Instr} {s t : State} {f : FaultRecord} (shape : ExecShape i s t)
    (hrun : s.status = .running) (h : t.status = .faulted f) : faultAddress f = s.pc ∧ t = s.endedBy f := by
  cases shape with
  | wrote | linked | branched | passed | stored => simp [hrun] at h
  | refused kind ea n data =>
    obtain rfl := Status.faulted.inj h
    have hlater : raisedByFetch (.memoryFault s.pc kind ea n) = false := beq_false_of_ne data
    exact ⟨rfl, by rw [State.endedBy, hlater]; rfl⟩
  | unsupported =>
    obtain rfl := Status.faulted.inj h
    exact ⟨rfl, rfl⟩
  | exited => cases h

/-- Everything a step that ends in a fault can have done (R98). -/
theorem step_faulted {s t : State} {f : FaultRecord} (hstep : step s = .next t) (h : t.status = .faulted f) :
    faultAddress f = s.pc ∧ t = s.endedBy f := by
  obtain ⟨hrun, hfault | ⟨i, -, hexec⟩⟩ := step_next_cases hstep
  · obtain ⟨f', haddress, rfl⟩ := frontEnd_error_endedBy hfault
    obtain rfl := Status.faulted.inj h
    exact ⟨haddress, rfl⟩
  · exact (shape_of_exec hexec).endedBy_of_faulted hrun h

/-! ## The obligations -/

/-- Settles O26: the state is `endedBy` of the recorded fault, which differs from the start in the status and the pc
alone. -/
theorem faultsArePrecise : Obligations.FaultsArePrecise := by
  intro s t f hstep hstatus
  obtain ⟨haddress, rfl⟩ := step_faulted hstep hstatus
  exact ⟨haddress, movedTo_endedBy s f⟩

/-- Settles O48: the code of each kind is D27's row, and the exit code is passed on. -/
theorem faultCodes : Obligations.FaultCodes :=
  ⟨fun _ => rfl, fun _ _ _ => rfl, fun _ _ _ _ _ => rfl, fun _ _ _ _ => rfl, fun _ _ _ _ => rfl, fun _ _ => rfl,
    fun _ => rfl⟩

end Sys2Proof.Machine
end

section
/-! SUPPORT. The loader's stand-in (70_reset_and_hazards.md R192) and the vectors' words (95_test_vectors.md): an
instruction word placed at the pc as a store of that word, and the proofs of the remaining two statements. -/

namespace Sys2Proof.Machine

/-! ## Placing an instruction word -/

/-- Placing a word is a store of its four bytes at the pc. -/
theorem withFetchWord_eq_setMem (s : State) (w : InstrWord) :
    s.withFetchWord 32 w.toNat =
      s.setMem (s.mem.writeLE s.pc Width.word.bytes ((w.setWidth 64).setWidth (8 * Width.word.bytes))) := by
  have hplaced : BitVec.ofNat 32 (w.toNat % 2 ^ 32) = w := by
    rw [Nat.mod_eq_of_lt w.isLt, BitVec.ofNat_toNat, BitVec.setWidth_eq]
  have hstored : (w.setWidth 64).setWidth 32 = w := by
    rw [BitVec.setWidth_setWidth_of_le w (by decide), BitVec.setWidth_eq]
  exact congrArg (fun v : BitVec (8 * 4) => s.setMem (s.mem.writeLE s.pc 4 v)) (hplaced.trans hstored.symm)

/-- A placed word has the frame of a store at the pc, which itself stays (R192; log 5). -/
theorem storedAt_withFetchWord {s : State} (h : s.mem.wf) (w : InstrWord) :
    StoredAt s (s.withFetchWord 32 w.toNat) s.pc 4 (w.setWidth 64) s.pc := by
  obtain ⟨hstored, hother, -, -, -, -⟩ := storedAt_writeLE h s.pc .word (w.setWidth 64)
  rw [withFetchWord_eq_setMem]
  exact ⟨hstored, hother, fun _ => rfl, rfl, rfl, rfl⟩

/-- The word the machine fetches after a word has been placed is that word (R41, R192). -/
theorem wordAt_withFetchWord {s : State} (h : s.mem.wf) (w : InstrWord) :
    wordAt (s.withFetchWord 32 w.toNat) s.pc = w :=
  calc wordAt (s.withFetchWord 32 w.toNat) s.pc
      = (w.setWidth 64).extractLsb' 0 32 := (storedAt_withFetchWord h w).wordAt
    _ = w.extractLsb' 0 32 := BitVec.extractLsb'_setWidth_of_le (by decide)
    _ = w := BitVec.extractLsb'_eq_self

/-! ## The obligations -/

/-- Settles O49: the step fetches the placed word, which decodes to the encoded instruction. -/
theorem placedInstructionRuns : Obligations.PlacedInstructionRuns := by
  intro s i hs hrun hadmit hi
  have placed := storedAt_withFetchWord hs.memoryForm (encode i)
  refine ⟨step_of_decode (placed.status.trans hrun) ?even ?admitted ?decodes, placed⟩
  case even => rw [placed.pc, hs.evenPc]
  case admitted => rw [placed.verdict, placed.pc, hadmit]
  case decodes => rw [placed.pc, wordAt_withFetchWord hs.memoryForm, decodeOfEncode i hi]

/-- Settles O1: each of the words is what the encoder writes for its instruction (D1, D2). -/
theorem wordsOfEveryFamilyDecode : Obligations.WordsOfEveryFamilyDecode := by
  and_intros <;> exact decode_of_encode_eq rfl rfl

end Sys2Proof.Machine
end
